-- ==== Sys2Proof/Word.lean ====
section
/-! DEFINITION. The bit-vector types of the machine (00_scope.md R8: all values are unsigned). -/

namespace Sys2Proof

/-- A data byte: a `V` register, a memory byte, a timer, the immediate `NN` (R21, R29, R60, R94). -/
abbrev Byte := BitVec 8

/-- A 16-bit quantity: an instruction word, `I`, `PC`, a stack entry (R23, R24, R26, R91). -/
abbrev Word := BitVec 16

/-- A 4-bit field: the family, a selector, the sprite height `N`, a key number (R92, R94). -/
abbrev Nibble := BitVec 4

/-- The number of a `V` register, the fields `X` and `Y`; every value is legal (R94). -/
abbrev Reg := BitVec 4

/-- A 12-bit absolute memory address, the field `NNN` (R94). -/
abbrev Addr := BitVec 12

end Sys2Proof
end

