-- ==== Sys2Proof/Decode.lean ====
section
/-! DEFINITION. The fields of an instruction word (30_encoding.md R92), the decoder (R95), the decoder of a byte sequence
(big-endian, 20_memory.md R69), the encoder, and the opcode map as the table of R96. -/

namespace Sys2Proof

/-! ## Fields (R92) -/

/-- `n3 = op[15:12]`, the family. -/
def Field.n3 (op : Word) : Nibble := op.extractLsb' 12 4

/-- `X = op[11:8]`. -/
def Field.x (op : Word) : Reg := op.extractLsb' 8 4

/-- `Y = op[7:4]`. -/
def Field.y (op : Word) : Reg := op.extractLsb' 4 4

/-- `N = op[3:0]`. -/
def Field.n (op : Word) : Nibble := op.extractLsb' 0 4

/-- `NN = op[7:0]`. -/
def Field.nn (op : Word) : Byte := op.extractLsb' 0 8

/-- `NNN = op[11:0]`. -/
def Field.nnn (op : Word) : Addr := op.extractLsb' 0 12

/-- The instruction word of two consecutive bytes: the first byte is the high one (R69). -/
def wordOfBytes (hi lo : Byte) : Word := hi ++ lo

/-- The byte of a word at the lower address (R69). -/
def highByte (op : Word) : Byte := op.extractLsb' 8 8

/-- The byte of a word at the higher address (R69). -/
def lowByte (op : Word) : Byte := op.extractLsb' 0 8

/-! ## The decoder -/

/-- Family 0 (R95, R98): the two exact words, then SYS. -/
def decode0 (op : Word) : Option Instr :=
  if op = 0x00E0#16 then some .cls
  else if op = 0x00EE#16 then some .ret
  else some (.sys (Field.nnn op))

/-- Family 8, selected by `N` (R95, R99). -/
def decode8 (op : Word) : Option Instr :=
  match (Field.n op).toNat with
  | 0x0 => some (.ldReg (Field.x op) (Field.y op))
  | 0x1 => some (.orReg (Field.x op) (Field.y op))
  | 0x2 => some (.andReg (Field.x op) (Field.y op))
  | 0x3 => some (.xorReg (Field.x op) (Field.y op))
  | 0x4 => some (.addReg (Field.x op) (Field.y op))
  | 0x5 => some (.sub (Field.x op) (Field.y op))
  | 0x6 => some (.shr (Field.x op) (Field.y op))
  | 0x7 => some (.subn (Field.x op) (Field.y op))
  | 0xE => some (.shl (Field.x op) (Field.y op))
  | _ => none

/-- Family E, selected by `NN` (R95, R99). -/
def decodeE (op : Word) : Option Instr :=
  match (Field.nn op).toNat with
  | 0x9E => some (.skp (Field.x op))
  | 0xA1 => some (.sknp (Field.x op))
  | _ => none

/-- Family F, selected by `NN` (R95, R99). -/
def decodeF (op : Word) : Option Instr :=
  match (Field.nn op).toNat with
  | 0x07 => some (.ldVxDt (Field.x op))
  | 0x0A => some (.ldVxK (Field.x op))
  | 0x15 => some (.ldDtVx (Field.x op))
  | 0x18 => some (.ldStVx (Field.x op))
  | 0x1E => some (.addI (Field.x op))
  | 0x29 => some (.ldF (Field.x op))
  | 0x33 => some (.ldB (Field.x op))
  | 0x55 => some (.ldMemVx (Field.x op))
  | 0x65 => some (.ldVxMem (Field.x op))
  | _ => none

/-- `Decode(op)` (R95): a total function of the word alone; `none` is `UNKNOWN` (R99). Decoding is strict (D25):
families 5 and 9 need `N = 0`. -/
def decodeWord (op : Word) : Option Instr :=
  match (Field.n3 op).toNat with
  | 0x0 => decode0 op
  | 0x1 => some (.jp (Field.nnn op))
  | 0x2 => some (.call (Field.nnn op))
  | 0x3 => some (.seImm (Field.x op) (Field.nn op))
  | 0x4 => some (.sneImm (Field.x op) (Field.nn op))
  | 0x5 => if Field.n op = 0x0#4 then some (.seReg (Field.x op) (Field.y op)) else none
  | 0x6 => some (.ldImm (Field.x op) (Field.nn op))
  | 0x7 => some (.addImm (Field.x op) (Field.nn op))
  | 0x8 => decode8 op
  | 0x9 => if Field.n op = 0x0#4 then some (.sneReg (Field.x op) (Field.y op)) else none
  | 0xA => some (.ldI (Field.nnn op))
  | 0xB => some (.jpV0 (Field.nnn op))
  | 0xC => some (.rnd (Field.x op) (Field.nn op))
  | 0xD => some (.drw (Field.x op) (Field.y op) (Field.n op))
  | 0xE => decodeE op
  | 0xF => decodeF op
  | _ => none

/-- Why a byte sequence is no instruction. -/
inductive DecodeError where
  /-- Fewer than two bytes; it never arises in a fetch, which reads two (R70). -/
  | truncated
  /-- The word is `UNKNOWN` (R99). -/
  | unknown (op : Word)
  deriving DecidableEq, Repr

/-- The first instruction of a byte sequence and the bytes after it. -/
def decode : List Byte → Except DecodeError (Instr × List Byte)
  | hi :: lo :: rest =>
    match decodeWord (wordOfBytes hi lo) with
    | some i => .ok (i, rest)
    | none => .error (.unknown (wordOfBytes hi lo))
  | _ => .error .truncated

/-! ## The encoder (R93, R96) -/

/-- Format `ADDR`: family, `NNN`. -/
def encodeAddr (family : Nibble) (nnn : Addr) : Word := family ++ nnn

/-- Formats `XIMM` and `XSEL`: family, `X`, `NN` (an immediate or a selector). -/
def encodeXNN (family : Nibble) (x : Reg) (nn : Byte) : Word := family ++ (x ++ nn)

/-- Format `XYN`: family, `X`, `Y`, `N`. -/
def encodeXYN (family : Nibble) (x y : Reg) (n : Nibble) : Word := family ++ (x ++ (y ++ n))

/-- The word of an instruction. -/
def encodeWord : Instr → Word
  | .cls => 0x00E0#16
  | .ret => 0x00EE#16
  | .sys nnn => encodeAddr 0x0#4 nnn
  | .jp nnn => encodeAddr 0x1#4 nnn
  | .call nnn => encodeAddr 0x2#4 nnn
  | .seImm x nn => encodeXNN 0x3#4 x nn
  | .sneImm x nn => encodeXNN 0x4#4 x nn
  | .seReg x y => encodeXYN 0x5#4 x y 0x0#4
  | .ldImm x nn => encodeXNN 0x6#4 x nn
  | .addImm x nn => encodeXNN 0x7#4 x nn
  | .ldReg x y => encodeXYN 0x8#4 x y 0x0#4
  | .orReg x y => encodeXYN 0x8#4 x y 0x1#4
  | .andReg x y => encodeXYN 0x8#4 x y 0x2#4
  | .xorReg x y => encodeXYN 0x8#4 x y 0x3#4
  | .addReg x y => encodeXYN 0x8#4 x y 0x4#4
  | .sub x y => encodeXYN 0x8#4 x y 0x5#4
  | .shr x y => encodeXYN 0x8#4 x y 0x6#4
  | .subn x y => encodeXYN 0x8#4 x y 0x7#4
  | .shl x y => encodeXYN 0x8#4 x y 0xE#4
  | .sneReg x y => encodeXYN 0x9#4 x y 0x0#4
  | .ldI nnn => encodeAddr 0xA#4 nnn
  | .jpV0 nnn => encodeAddr 0xB#4 nnn
  | .rnd x nn => encodeXNN 0xC#4 x nn
  | .drw x y n => encodeXYN 0xD#4 x y n
  | .skp x => encodeXNN 0xE#4 x 0x9E#8
  | .sknp x => encodeXNN 0xE#4 x 0xA1#8
  | .ldVxDt x => encodeXNN 0xF#4 x 0x07#8
  | .ldVxK x => encodeXNN 0xF#4 x 0x0A#8
  | .ldDtVx x => encodeXNN 0xF#4 x 0x15#8
  | .ldStVx x => encodeXNN 0xF#4 x 0x18#8
  | .addI x => encodeXNN 0xF#4 x 0x1E#8
  | .ldF x => encodeXNN 0xF#4 x 0x29#8
  | .ldB x => encodeXNN 0xF#4 x 0x33#8
  | .ldMemVx x => encodeXNN 0xF#4 x 0x55#8
  | .ldVxMem x => encodeXNN 0xF#4 x 0x65#8

/-- The bytes of an instruction as memory holds them (R69). -/
def encode (i : Instr) : List Byte := [highByte (encodeWord i), lowByte (encodeWord i)]

/-! ## The opcode map as a table (R96) -/

/-- One row of the map: the word is the row's instruction iff `op & mask = match` and no earlier row matches. -/
structure OpcodeRow where
  mask     : Word
  pattern  : Word
  mnemonic : String
  deriving DecidableEq, Repr

/-- The rows of R96 (spec/opcode_table.json), in priority order, with the table's mnemonics. -/
def opcodeMap : List OpcodeRow :=
  [ ⟨0xFFFF, 0x00E0, "CLS"⟩, ⟨0xFFFF, 0x00EE, "RET"⟩, ⟨0xF000, 0x0000, "SYS_NNN"⟩, ⟨0xF000, 0x1000, "JP_NNN"⟩,
    ⟨0xF000, 0x2000, "CALL_NNN"⟩, ⟨0xF000, 0x3000, "SE_Vx_NN"⟩, ⟨0xF000, 0x4000, "SNE_Vx_NN"⟩,
    ⟨0xF00F, 0x5000, "SE_Vx_Vy"⟩, ⟨0xF000, 0x6000, "LD_Vx_NN"⟩, ⟨0xF000, 0x7000, "ADD_Vx_NN"⟩ ] ++
  [ ⟨0xF00F, 0x8000, "LD_Vx_Vy"⟩, ⟨0xF00F, 0x8001, "OR_Vx_Vy"⟩, ⟨0xF00F, 0x8002, "AND_Vx_Vy"⟩,
    ⟨0xF00F, 0x8003, "XOR_Vx_Vy"⟩, ⟨0xF00F, 0x8004, "ADD_Vx_Vy"⟩, ⟨0xF00F, 0x8005, "SUB_Vx_Vy"⟩,
    ⟨0xF00F, 0x8006, "SHR_Vx_Vy"⟩, ⟨0xF00F, 0x8007, "SUBN_Vx_Vy"⟩, ⟨0xF00F, 0x800E, "SHL_Vx_Vy"⟩,
    ⟨0xF00F, 0x9000, "SNE_Vx_Vy"⟩ ] ++
  [ ⟨0xF000, 0xA000, "LD_I_NNN"⟩, ⟨0xF000, 0xB000, "JP_V0_NNN"⟩, ⟨0xF000, 0xC000, "RND_Vx_NN"⟩,
    ⟨0xF000, 0xD000, "DRW_Vx_Vy_N"⟩, ⟨0xF0FF, 0xE09E, "SKP_Vx"⟩, ⟨0xF0FF, 0xE0A1, "SKNP_Vx"⟩ ] ++
  [ ⟨0xF0FF, 0xF007, "LD_Vx_DT"⟩, ⟨0xF0FF, 0xF00A, "LD_Vx_K"⟩, ⟨0xF0FF, 0xF015, "LD_DT_Vx"⟩,
    ⟨0xF0FF, 0xF018, "LD_ST_Vx"⟩, ⟨0xF0FF, 0xF01E, "ADD_I_Vx"⟩, ⟨0xF0FF, 0xF029, "LD_F_Vx"⟩,
    ⟨0xF0FF, 0xF033, "LD_B_Vx"⟩, ⟨0xF0FF, 0xF055, "LD__I__Vx"⟩, ⟨0xF0FF, 0xF065, "LD_Vx__I"⟩ ]

/-- The first row a word matches (INDEX.md: a decoder takes the first row with `op & mask = match`). -/
def opcodeRow (op : Word) : Option OpcodeRow := opcodeMap.find? (fun r => op &&& r.mask == r.pattern)

/-- The table's mnemonic of an instruction. -/
def Instr.mnemonic : Instr → String
  | .cls => "CLS"
  | .ret => "RET"
  | .sys _ => "SYS_NNN"
  | .jp _ => "JP_NNN"
  | .call _ => "CALL_NNN"
  | .seImm _ _ => "SE_Vx_NN"
  | .sneImm _ _ => "SNE_Vx_NN"
  | .seReg _ _ => "SE_Vx_Vy"
  | .ldImm _ _ => "LD_Vx_NN"
  | .addImm _ _ => "ADD_Vx_NN"
  | .ldReg _ _ => "LD_Vx_Vy"
  | .orReg _ _ => "OR_Vx_Vy"
  | .andReg _ _ => "AND_Vx_Vy"
  | .xorReg _ _ => "XOR_Vx_Vy"
  | .addReg _ _ => "ADD_Vx_Vy"
  | .sub _ _ => "SUB_Vx_Vy"
  | .shr _ _ => "SHR_Vx_Vy"
  | .subn _ _ => "SUBN_Vx_Vy"
  | .shl _ _ => "SHL_Vx_Vy"
  | .sneReg _ _ => "SNE_Vx_Vy"
  | .ldI _ => "LD_I_NNN"
  | .jpV0 _ => "JP_V0_NNN"
  | .rnd _ _ => "RND_Vx_NN"
  | .drw _ _ _ => "DRW_Vx_Vy_N"
  | .skp _ => "SKP_Vx"
  | .sknp _ => "SKNP_Vx"
  | .ldVxDt _ => "LD_Vx_DT"
  | .ldVxK _ => "LD_Vx_K"
  | .ldDtVx _ => "LD_DT_Vx"
  | .ldStVx _ => "LD_ST_Vx"
  | .addI _ => "ADD_I_Vx"
  | .ldF _ => "LD_F_Vx"
  | .ldB _ => "LD_B_Vx"
  | .ldMemVx _ => "LD__I__Vx"
  | .ldVxMem _ => "LD_Vx__I"

/-! ## The host's question -/

/-- The instruction this decoder reads from an instruction whose bits are `w`, bit 0 the least significant bit of the
16-bit word; bits above `nbits` are 0. The word is laid out as memory holds it, high byte first (R69). -/
def decodeTableWord (nbits w : Nat) : Option Instr :=
  let op : Word := BitVec.ofNat 16 (w % 2 ^ nbits)
  match decode [highByte op, lowByte op] with
  | .ok (i, _) => some i
  | .error _ => none

end Sys2Proof
end

