-- ==== Sys2Proof/Config.lean ====
section
/-! DEFINITION. What an implementation fixes (00_scope.md R5, 92_eei_decisions.md) and the free input `rnd`.
The values this hardware takes are in Machine/Parameters.lean. -/

namespace Sys2Proof

/-- `ADDR_POLICY` (R5, R62, R245, decision D1): what an address beyond `0xFFF` does. -/
inductive AddrPolicy where
  | mask   -- reduced to 12 bits
  | check  -- the fault `OutOfBounds`
  deriving DecidableEq, Repr

/-- `SHIFT_SRC` (R5, R159, R161, decision D2): the register SHR and SHL shift. -/
inductive ShiftSrc where
  | vy
  | vx
  deriving DecidableEq, Repr

/-- `JUMP_OFFSET_REG` (R5, R131, decision D3): the register JP V0,NNN adds. -/
inductive JumpOffsetReg where
  | v0
  | vx
  deriving DecidableEq, Repr

/-- `SYS_POLICY` (R5, R120, decision D4): what a SYS word does. -/
inductive SysPolicy where
  | fault
  | nop
  deriving DecidableEq, Repr

/-- The four parameters that the source itself flags as choices and that the spec advises a model to carry as
configuration fields (92_eei_decisions.md, "Open parameters"). -/
structure Config where
  addrPolicy    : AddrPolicy
  shiftSrc      : ShiftSrc
  jumpOffsetReg : JumpOffsetReg
  sysPolicy     : SysPolicy
  deriving DecidableEq, Repr

/-- The input `rnd` at the n-th draw since the state it is counted from: a free 8-bit input under no law
(R7, R162, decision D17). It has no body, so nothing can be proved of its values: what is proved of a RND holds
for every byte. Log entry 5. -/
opaque Config.rnd : Nat → Byte

end Sys2Proof
end

