-- ==== Sys2Proof/Machine/Parameters.lean ====
section
/-! DEFINITION. The values this hardware takes for the parameters of 00_scope.md R5, and the font (20_memory.md R68). -/

namespace Sys2Proof

/-- The decided values of the four policies (decisions D1 to D4; log entries 3 and 4). -/
def Config.hardware : Config where
  addrPolicy    := .mask
  shiftSrc      := .vy
  jumpOffsetReg := .v0
  sysPolicy     := .fault

namespace Machine

/-- `MEM_SIZE`: 4096 bytes (R5, R60). -/
def memSize : Nat := 0x1000

/-- `PROG_BASE`: where the image is loaded, the first address an instruction may write (R5, R61, R65). -/
def progBase : Nat := 0x200

/-- `FONT_BASE`: where the glyph of digit 0 begins (R5, R67). -/
def fontBase : Nat := 0x000

/-- `FONT_GLYPH_BYTES` (R5, R67). -/
def glyphBytes : Nat := 5

/-- `MEM_FILL`: a byte that neither the font nor the image fills (R5, decision D18; log entry 1). -/
def memFill : Byte := 0x00

/-- The 80 font bytes, digit 0 first, the top row of a glyph first (R68; log entry 2). -/
def font : List Byte :=
  [ 0xF0, 0x90, 0x90, 0x90, 0xF0,   0x20, 0x60, 0x20, 0x20, 0x70 ] ++
  [ 0xF0, 0x10, 0xF0, 0x80, 0xF0,   0xF0, 0x10, 0xF0, 0x10, 0xF0 ] ++
  [ 0x90, 0x90, 0xF0, 0x10, 0x10,   0xF0, 0x80, 0xF0, 0x10, 0xF0 ] ++
  [ 0xF0, 0x80, 0xF0, 0x90, 0xF0,   0xF0, 0x10, 0x20, 0x40, 0x40 ] ++
  [ 0xF0, 0x90, 0xF0, 0x90, 0xF0,   0xF0, 0x90, 0xF0, 0x10, 0xF0 ] ++
  [ 0xF0, 0x90, 0xF0, 0x90, 0x90,   0xE0, 0x90, 0xE0, 0x90, 0xE0 ] ++
  [ 0xF0, 0x80, 0x80, 0x80, 0xF0,   0xE0, 0x90, 0x90, 0x90, 0xE0 ] ++
  [ 0xF0, 0x80, 0xF0, 0x80, 0xF0,   0xF0, 0x80, 0xF0, 0x80, 0x80 ]

end Machine

end Sys2Proof
end

