-- ==== Sys2Proof/Machine/State.lean ====
section
/-! DEFINITION. The state of the machine (10_state.md R20), its reset value (R37), and the reasons a step can stop. -/

namespace Sys2Proof.Machine

/-- `MEM` (R31, R60): the listed cells, over what an unlisted address reads as (`Memory.unlisted`, the reset contents).
The canonical form is `Memory.wf`. -/
structure Memory where
  cells : List Host.Cell
  deriving DecidableEq, Repr

/-- One row of the framebuffer: 64 pixels, column 0 first. -/
abbrev FbRow := Vector Bool 64

/-- `FB` (R32): 32 rows, row 0 first; `fb[y][x]`; `true` is on. -/
abbrev Framebuffer := Vector FbRow 32

/-- Everything 10_state.md R20 gives the machine, and one field of the model's own (`rndCount`). -/
structure State where
  /-- `V[0]`..`V[15]` (R21); `V[15]` is also the flag register `VF` (R22). -/
  v        : Vector Byte 16
  /-- `I` (R23); all 16 bits are state. -/
  i        : Word
  /-- `PC` (R24): between cycles the address of the next instruction to fetch. -/
  pc       : Word
  /-- `SP` (R25): how many return addresses are on the stack, 0 to 16. -/
  sp       : Byte
  /-- `STACK` (R26): entries at index `SP` or above are dead. -/
  stack    : Vector Word 16
  /-- `DT` (R29). -/
  dt       : Byte
  /-- `ST` (R30). -/
  st       : Byte
  /-- `MEM` (R31). -/
  mem      : Memory
  /-- `FB` (R32). -/
  fb       : Framebuffer
  /-- `KEYS` (R33): `true` is pressed. -/
  keys     : Vector Bool 16
  /-- THE MODEL'S OWN field, not the spec's: the draw of the free input `rnd` that the next RND takes (log entry 5). -/
  rndCount : Nat
  deriving DecidableEq, Repr

/-- The faults of 60_exceptions.md R240. Each carries the report: what extra information the kind has, the instruction
word `op`, and the address `pc` the faulting instruction was fetched from. A fault changes no state (R241). Every one
is what the spec says the machine does, so none is a departure from it: safe. -/
inductive Fault where
  /-- Code 1. Raised by no step of this hardware (R245); under the alternative `ADDR_POLICY = check` by a memory access
  or a JP V0 sum beyond `0xFFF` and by a step that begins with `PC > 0xFFE`, which has fetched no word. Safe. -/
  | outOfBounds (addr : Nat) (op : Option Word) (pc : Word)
  /-- Code 2. Raised by CALL when `SP = 16` (R243). Safe. -/
  | stackOverflow (op pc : Word)
  /-- Code 3. Raised by RET when `SP = 0` (R244). Safe. -/
  | stackUnderflow (op pc : Word)
  /-- Code 4. Raised by a step whose word is `UNKNOWN`, and by SYS (R242). Safe. -/
  | unknownOpcode (op pc : Word)
  /-- Code 5. Raised by `Reset(rom)` whose image does not fit, never by a step (R256). Safe. -/
  | loadTooLarge
  /-- Code 6. Raised by JP, CALL and JP V0 whose target is odd (R246). Safe. -/
  | misalignedPC (target op pc : Word)
  /-- Code 7. Raised by LD B,Vx and LD [I],Vx that would store below `0x200`; `addr` is the first such address (R247).
  Safe. -/
  | protectedWrite (addr op pc : Word)
  deriving DecidableEq, Repr

/-- Why a step has no meaning. -/
inductive Refusal where
  /-- Raised by `exec`'s arm of an instruction the model has not reached; no arm does. Safe: the model stops. -/
  | notModelled (mnemonic : String)
  /-- Raised by CALL and RET in a state with `SP` in 17..255, which the spec says never occurs (R25) and for which it
  gives no stack entry. No run reaches such a state. Safe: the model stops. Log entry 8. -/
  | stackPointerOutOfRange (sp : Byte)
  deriving DecidableEq, Repr

/-- What a step or a meaning answers. -/
abbrev Result := Host.Outcome State Fault Refusal

/-- The machine right after `Reset` with the empty image (R37, 70_reset_and_hazards.md R280): memory lists nothing, so
every byte reads as its reset contents. -/
def State.reset : State where
  v        := Vector.replicate 16 0x00#8
  i        := 0x0000#16
  pc       := 0x0200#16
  sp       := 0x00#8
  stack    := Vector.replicate 16 0x0000#16
  dt       := 0x00#8
  st       := 0x00#8
  mem      := ⟨[]⟩
  fb       := Vector.replicate 32 (Vector.replicate 64 false)
  keys     := Vector.replicate 16 false
  rndCount := 0

end Sys2Proof.Machine
end

