-- ==== Sys2Proof/Machine/Ops.lean ====
section
/-! DEFINITION. The named operations over memory, registers, the program counter, the stack and the framebuffer, and
raising a fault. There is no exception entry and no return from exception in this hardware (60_exceptions.md R258,
R259): a fault is the result of the cycle and changes nothing (R241). -/

namespace Sys2Proof.Machine

/-! ## Memory as a list of cells -/

/-- What an address that no cell lists reads as: the reset contents, the font at `0x000`..`0x04F` and `MEM_FILL`
elsewhere (R37, R67, R68). -/
def Memory.unlisted (a : Nat) : Byte := font.getD a memFill

/-- The byte the cells list at an address, if one does. -/
def lookupCell (a : Nat) : List Host.Cell → Option Byte
  | [] => none
  | (k, b) :: rest => if k = a then some b else lookupCell a rest

/-- The model's read of one byte: `MEM[a]`. -/
def Memory.read (m : Memory) (a : Nat) : Byte := (lookupCell a m.cells).getD (Memory.unlisted a)

/-- The cell that lists `b` at `a`: none where an unlisted address reads as `b` anyway. -/
def cellFor (a : Nat) (b : Byte) : List Host.Cell := if b = Memory.unlisted a then [] else [(a, b)]

/-- The cells with `b` at `a`, addresses rising. -/
def insertCell (a : Nat) (b : Byte) : List Host.Cell → List Host.Cell
  | [] => cellFor a b
  | (k, x) :: rest =>
    if a < k then cellFor a b ++ (k, x) :: rest
    else if a = k then cellFor a b ++ rest
    else (k, x) :: insertCell a b rest

/-- `MEM[a] <- b` on the plain store. -/
def Memory.write (m : Memory) (a : Nat) (b : Byte) : Memory := ⟨insertCell a b m.cells⟩

/-- Several writes, first one first. -/
def Memory.writeAll (m : Memory) : List (Nat × Byte) → Memory
  | [] => m
  | (a, b) :: rest => (m.write a b).writeAll rest

/-- Addresses strictly rising from `lo`, all inside the address space, and no cell that says what is so without it. -/
def cellsWf (lo : Nat) : List Host.Cell → Bool
  | [] => true
  | (a, b) :: rest => decide (lo ≤ a) && decide (a < memSize) && decide (b ≠ Memory.unlisted a) && cellsWf (a + 1) rest

/-- The canonical form of the memory. -/
def Memory.wf (m : Memory) : Bool := cellsWf 0 m.cells

/-- `Load(bytes, at)` (R66): no masking, no wrap, no write check; `none` is its failure. -/
def Memory.load (m : Memory) (bytes : List Byte) (at_ : Nat) : Option Memory :=
  if at_ + bytes.length > memSize then none
  else some (m.writeAll ((List.range' at_ bytes.length).zip bytes))

/-! ## Addressed accesses (20_memory.md R62 to R65, 42_index_memory.md R184) -/

/-- The address the memory selects for a computed address: masked to 12 bits (R62), or, under `ADDR_POLICY = check`, the
address itself; beyond `0xFFF` that is the failure `OutOfBounds`, given by the address (R245). -/
def effAddr (p : AddrPolicy) (a : Nat) : Except Nat Nat :=
  match p with
  | .mask => .ok (a % memSize)
  | .check => if a < memSize then .ok a else .error a

/-- `MemRead(base + k, 1)` for `k = 0 .. n-1`, or the first address that is out of bounds (R63, R184, R245). -/
def readBytes (p : AddrPolicy) (m : Memory) (base : Nat) : Nat → Except Nat (List Byte)
  | 0 => .ok []
  | n + 1 =>
    match effAddr p base with
    | .error a => .error a
    | .ok ea =>
      match readBytes p m (base + 1) n with
      | .error a => .error a
      | .ok bs => .ok (m.read ea :: bs)

/-- Why a store fails. -/
inductive StoreError where
  | outOfBounds (addr : Nat)
  | protectedWrite (addr : Nat)
  deriving DecidableEq, Repr

/-- The effective address of a store: below `0x200` it fails (R64, R65). -/
def storeAddr (p : AddrPolicy) (a : Nat) : Except StoreError Nat :=
  match effAddr p a with
  | .error a => .error (.outOfBounds a)
  | .ok ea => if ea < progBase then .error (.protectedWrite ea) else .ok ea

/-- The effective addresses of a store of `n` bytes at `base`; the failure of the first that fails, in order of `k`
(R184, R257). -/
def storeAddrs (p : AddrPolicy) (base : Nat) : Nat → Except StoreError (List Nat)
  | 0 => .ok []
  | n + 1 =>
    match storeAddr p base with
    | .error e => .error e
    | .ok ea =>
      match storeAddrs p (base + 1) n with
      | .error e => .error e
      | .ok eas => .ok (ea :: eas)

/-- A store of `bytes` at `base, base + 1, ...`: all of its addresses are checked before any byte is written (R184,
R241). -/
def storeBytes (p : AddrPolicy) (m : Memory) (base : Nat) (bytes : List Byte) : Except StoreError Memory :=
  match storeAddrs p base bytes.length with
  | .error e => .error e
  | .ok eas => .ok (m.writeAll (eas.zip bytes))

/-! ## Registers -/

/-- `V[r]` (R21). -/
def State.reg (s : State) (r : Reg) : Byte := s.v[r.toNat]'(r.isLt)

/-- `V[r] <- b` (R21). -/
def State.setReg (s : State) (r : Reg) (b : Byte) : State := { s with v := s.v.set r.toNat b r.isLt }

/-- The number of `VF` (R22). -/
abbrev vf : Reg := 0xF#4

/-- The bytes of `V[0]`..`V[x]` (R185). -/
def State.regsUpTo (s : State) (x : Reg) : List Byte := s.v.toList.take (x.toNat + 1)

/-- `V[k], V[k+1], ... <- bytes` (R186). -/
def setRegsFrom (v : Vector Byte 16) (k : Nat) : List Byte → Vector Byte 16
  | [] => v
  | b :: rest => setRegsFrom (v.setIfInBounds k b) (k + 1) rest

/-! ## The program counter (10_state.md R24, 40_flow.md R130) -/

/-- `PC + 2`: modulo `0x1000`, or without the wrap under `ADDR_POLICY = check` (R245). -/
def nextPc (p : AddrPolicy) (pc : Word) : Word :=
  match p with
  | .mask => (pc + 2#16) &&& 0x0FFF#16
  | .check => pc + 2#16

/-- The advance of the cycle, which every instruction's handler runs after (R24, R90). -/
def State.advance (s : State) (c : Config) : State := { s with pc := nextPc c.addrPolicy s.pc }

/-- The advance and, if the condition holds, the skip of the next instruction (R124). -/
def State.skipIf (s : State) (cond : Bool) (c : Config) : State :=
  if cond then (s.advance c).advance c else s.advance c

/-! ## The stack (10_state.md R25 to R28) -/

/-- Why a stack operation has no result. -/
inductive StackError where
  | overflow
  | underflow
  | outOfRange (sp : Byte)
  deriving DecidableEq, Repr

/-- `Push(a)` (R27). -/
def State.push (s : State) (a : Word) : Except StackError State :=
  if h : s.sp.toNat < 16 then .ok { s with stack := s.stack.set s.sp.toNat a h, sp := s.sp + 1#8 }
  else if s.sp = 16#8 then .error .overflow
  else .error (.outOfRange s.sp)

/-- `Pop()` (R28): the entry and the state after; the entry is not cleared. -/
def State.pop (s : State) : Except StackError (Word × State) :=
  if s.sp = 0#8 then .error .underflow
  else if h : s.sp.toNat - 1 < 16 then .ok (s.stack[s.sp.toNat - 1]'h, { s with sp := s.sp - 1#8 })
  else .error (.outOfRange s.sp)

/-! ## The framebuffer (43_display.md R200, R201) -/

/-- `clear()`: all pixels off. -/
def Framebuffer.clear : Framebuffer := Vector.replicate 32 (Vector.replicate 64 false)

/-- `FB[y][x]`. -/
def Framebuffer.pixel (fb : Framebuffer) (x : Fin 64) (y : Fin 32) : Bool := fb[y][x]

/-- `FB[y][x] <- FB[y][x] ^ 1`. -/
def Framebuffer.flip (fb : Framebuffer) (x : Fin 64) (y : Fin 32) : Framebuffer :=
  fb.set y (fb[y].set x (!fb[y][x]))

/-- A framebuffer and whether a pixel has gone from on to off. -/
abbrev Drawing := Framebuffer × Bool

/-- The column of the grid that column `c` of a sprite at `x0` falls on (R201). -/
def column (x0 : Byte) (c : Nat) : Fin 64 := Fin.ofNat 64 (x0.toNat + c)

/-- The row of the grid that row `r` of a sprite at `y0` falls on (R201). -/
def row (y0 : Byte) (r : Nat) : Fin 32 := Fin.ofNat 32 (y0.toNat + r)

/-- Bit `7 - c` of a sprite byte is its column `c`: column 0 is the most significant bit (R201). -/
def spriteBit (b : Byte) (c : Nat) : Bool := b.getLsbD (7 - c)

/-- One column of one sprite row. -/
def drawColumn (x0 y0 : Byte) (r : Nat) (b : Byte) (d : Drawing) (c : Nat) : Drawing :=
  if spriteBit b c then
    (Framebuffer.flip d.1 (column x0 c) (row y0 r), d.2 || Framebuffer.pixel d.1 (column x0 c) (row y0 r))
  else d

/-- The columns `0 .. 7` of sprite row `r`. -/
def drawRow (x0 y0 : Byte) (r : Nat) (b : Byte) (d : Drawing) : Drawing :=
  [0, 1, 2, 3, 4, 5, 6, 7].foldl (drawColumn x0 y0 r b) d

/-- The sprite rows from row `r` on. -/
def drawRows (x0 y0 : Byte) (r : Nat) : List Byte → Drawing → Drawing
  | [], d => d
  | b :: rest, d => drawRows x0 y0 (r + 1) rest (drawRow x0 y0 r b d)

/-- `DrawSprite(x0, y0, rows)` (R201): the framebuffer after, and the collision. -/
def drawSprite (x0 y0 : Byte) (rows : List Byte) (fb : Framebuffer) : Drawing := drawRows x0 y0 0 rows (fb, false)

/-! ## The keys (44_input_timers.md R222, 60_exceptions.md R253) -/

/-- `KEYS[k]` (R33). -/
def State.key (s : State) (k : Nibble) : Bool := s.keys[k.toNat]'(k.isLt)

/-- The least number, from `k` on, of a key that is down. -/
def firstDown (k : Nat) : List Bool → Option Nat
  | [] => none
  | down :: rest => if down then some k else firstDown (k + 1) rest

/-- The least `k` with `KEYS[k] = 1`, if a key is down (R222). -/
def State.lowestKey (s : State) : Option Nat := firstDown 0 s.keys.toList

/-! ## Raising a fault (60_exceptions.md R240, R241)

The report's `op` is the word of the instruction and its `pc` the address the instruction was fetched from: `s` is the
state before the cycle. Nothing of the cycle is committed. -/

/-- `OutOfBounds` of an address (R245). -/
def raiseOutOfBounds (addr : Nat) (i : Instr) (s : State) : Result :=
  .fault (.outOfBounds addr (some (encodeWord i)) s.pc)

/-- The fault of a failed store (R247, R245). -/
def raiseStore (e : StoreError) (i : Instr) (s : State) : Result :=
  match e with
  | .outOfBounds a => raiseOutOfBounds a i s
  | .protectedWrite a => .fault (.protectedWrite (BitVec.ofNat 16 a) (encodeWord i) s.pc)

/-- The fault of a failed stack operation. -/
def raiseStack (e : StackError) (i : Instr) (s : State) : Result :=
  match e with
  | .overflow => .fault (.stackOverflow (encodeWord i) s.pc)
  | .underflow => .fault (.stackUnderflow (encodeWord i) s.pc)
  | .outOfRange sp => .refused (.stackPointerOutOfRange sp)

/-- `UnknownOpcode` of a word (R242). -/
def raiseUnknown (op : Word) (s : State) : Result := .fault (.unknownOpcode op s.pc)

/-- `MisalignedPC` of a target (R246). -/
def raiseMisaligned (target : Word) (i : Instr) (s : State) : Result :=
  .fault (.misalignedPC target (encodeWord i) s.pc)

/-! ## Fetch and the cycle (20_memory.md R70, 30_encoding.md R90) -/

/-- `Fetch()` (R70): the bytes at `PC` and `PC + 1`, the first the high one. Under `ADDR_POLICY = check` it fails when
`PC > 0xFFE` (R245). -/
def State.fetch (s : State) (c : Config) : Except Nat Word :=
  match effAddr c.addrPolicy s.pc.toNat with
  | .error a => .error a
  | .ok hi =>
    match effAddr c.addrPolicy (s.pc.toNat + 1) with
    | .error a => .error a
    | .ok lo => .ok (wordOfBytes (s.mem.read hi) (s.mem.read lo))

/-- One cycle with a given execute part: fetch, decode, execute (R90). The execute part is given the state before the
cycle and makes the advance of `PC` itself, so that a fault, which keeps none of the cycle (R241), has nothing to undo.
A word that is `UNKNOWN` raises `UnknownOpcode` (R242). -/
def cycle (c : Config) (execute : Instr → State → Result) (s : State) : Result :=
  match s.fetch c with
  | .error a => .fault (.outOfBounds a none s.pc)
  | .ok op =>
    match decodeWord op with
    | none => raiseUnknown op s
    | some i => execute i s

end Sys2Proof.Machine
end

