-- ==== Sys2Proof/Machine/Operands.lean ====
section
/-! DEFINITION. The operand forms: which register an instruction takes its operand from, and what it makes of the
register's value. -/

namespace Sys2Proof.Machine

/-- The register SHR and SHL shift: `V[Y]`, or `V[X]` under `SHIFT_SRC = VX` (R159, R161, decision D2). -/
def shiftSource (p : ShiftSrc) (x y : Reg) : Reg :=
  match p with
  | .vy => y
  | .vx => x

/-- The register JP V0,NNN adds: `V[0]`, or `V[X]` with `X` the top nibble of `NNN` under `JUMP_OFFSET_REG = VX`
(R131, decision D3). -/
def jumpOffset (p : JumpOffsetReg) (nnn : Addr) : Reg :=
  match p with
  | .v0 => 0x0#4
  | .vx => nnn.extractLsb' 8 4

/-- The low nibble of a register value: the key number of SKP and SKNP (R227, decision D11), the digit of LD F (R182,
decision D12). -/
def lowNibble (b : Byte) : Nibble := b.extractLsb' 0 4

/-- The address of the glyph of a digit (R67, R182). -/
def glyphAddr (d : Nibble) : Word := BitVec.ofNat 16 (fontBase + glyphBytes * d.toNat)

/-- The three BCD digits of a byte, hundreds first, one digit a byte (R183). -/
def bcdDigits (b : Byte) : List Byte :=
  [BitVec.ofNat 8 (b.toNat / 100), BitVec.ofNat 8 (b.toNat / 10 % 10), BitVec.ofNat 8 (b.toNat % 10)]

/-- An address field or a computed address as a value of `PC` or `I` (R94: zero-extended). -/
def toWord (a : Nat) : Word := BitVec.ofNat 16 a

end Sys2Proof.Machine
end

