-- ==== Sys2Proof/Machine/Flags.lean ====
section
/-! DEFINITION. The flag computations and the one way the flag-writing instructions write their result and `VF`
(10_state.md R22, 41_alu.md R150, R163). -/

namespace Sys2Proof.Machine

/-- The flag byte: `0x01` or `0x00`, the whole byte (R22, R150). -/
def flagByte (b : Bool) : Byte := if b then 0x01#8 else 0x00#8

/-- Carry of an addition: `a + b > 255` (R157, R163). -/
def carryOf (a b : Byte) : Bool := decide (a.toNat + b.toNat > 255)

/-- No borrow in `a - b`: `a >= b` (R158, R160). -/
def noBorrowOf (a b : Byte) : Bool := decide (b.toNat ≤ a.toNat)

/-- The bit a right shift by one shifts out (R159). -/
def bitOutRight (b : Byte) : Bool := b.getLsbD 0

/-- The bit a left shift by one shifts out (R161). -/
def bitOutLeft (b : Byte) : Bool := b.getLsbD 7

/-- The result to `V[x]` first, the flag to `V[15]` second, so that the flag wins when `x = 15` (R150, decision D14). -/
def State.setRegThenFlag (s : State) (x : Reg) (result : Byte) (flag : Bool) : State :=
  (s.setReg x result).setReg vf (flagByte flag)

end Sys2Proof.Machine
end

