-- ==== Sys2Proof/Machine/Alu.lean ====
section
/-! DEFINITION. Register load, arithmetic, logic, shift and random (41_alu.md). None of them faults. All source operands
are read from the state before the cycle, before anything is written (R150). -/

namespace Sys2Proof.Machine

/-- LD Vx,NN (R151). -/
def execLdImm (x : Reg) (nn : Byte) (s : State) (c : Config := Config.hardware) : Result :=
  .next ((s.advance c).setReg x nn)

/-- ADD Vx,NN (R152): modulo 256, no flag. -/
def execAddImm (x : Reg) (nn : Byte) (s : State) (c : Config := Config.hardware) : Result :=
  .next ((s.advance c).setReg x (s.reg x + nn))

/-- LD Vx,Vy (R153). -/
def execLdReg (x y : Reg) (s : State) (c : Config := Config.hardware) : Result :=
  .next ((s.advance c).setReg x (s.reg y))

/-- OR Vx,Vy (R154): no flag. -/
def execOrReg (x y : Reg) (s : State) (c : Config := Config.hardware) : Result :=
  .next ((s.advance c).setReg x (s.reg x ||| s.reg y))

/-- AND Vx,Vy (R155): no flag. -/
def execAndReg (x y : Reg) (s : State) (c : Config := Config.hardware) : Result :=
  .next ((s.advance c).setReg x (s.reg x &&& s.reg y))

/-- XOR Vx,Vy (R156): no flag. -/
def execXorReg (x y : Reg) (s : State) (c : Config := Config.hardware) : Result :=
  .next ((s.advance c).setReg x (s.reg x ^^^ s.reg y))

/-- ADD Vx,Vy (R157): the sum modulo 256, `VF` the carry. -/
def execAddReg (x y : Reg) (s : State) (c : Config := Config.hardware) : Result :=
  .next ((s.advance c).setRegThenFlag x (s.reg x + s.reg y) (carryOf (s.reg x) (s.reg y)))

/-- SUB Vx,Vy (R158): `V[X] - V[Y]` modulo 256, `VF` = 1 when there is no borrow. -/
def execSub (x y : Reg) (s : State) (c : Config := Config.hardware) : Result :=
  .next ((s.advance c).setRegThenFlag x (s.reg x - s.reg y) (noBorrowOf (s.reg x) (s.reg y)))

/-- SHR Vx,Vy (R159): the source register shifted right by one, `VF` the bit shifted out. -/
def execShr (x y : Reg) (s : State) (c : Config := Config.hardware) : Result :=
  .next ((s.advance c).setRegThenFlag x (s.reg (shiftSource c.shiftSrc x y) >>> 1)
    (bitOutRight (s.reg (shiftSource c.shiftSrc x y))))

/-- SUBN Vx,Vy (R160): `V[Y] - V[X]` modulo 256, `VF` = 1 when there is no borrow. -/
def execSubn (x y : Reg) (s : State) (c : Config := Config.hardware) : Result :=
  .next ((s.advance c).setRegThenFlag x (s.reg y - s.reg x) (noBorrowOf (s.reg y) (s.reg x)))

/-- SHL Vx,Vy (R161): the source register shifted left by one, `VF` the bit shifted out. -/
def execShl (x y : Reg) (s : State) (c : Config := Config.hardware) : Result :=
  .next ((s.advance c).setRegThenFlag x (s.reg (shiftSource c.shiftSrc x y) <<< 1)
    (bitOutLeft (s.reg (shiftSource c.shiftSrc x y))))

/-- RND Vx,NN (R162): the byte `rnd` presents, masked by `NN`; the next RND takes the next draw. -/
def execRnd (x : Reg) (nn : Byte) (s : State) (c : Config := Config.hardware) : Result :=
  .next { (s.advance c).setReg x (Config.rnd s.rndCount &&& nn) with rndCount := s.rndCount + 1 }

end Sys2Proof.Machine
end

