-- ==== Sys2Proof/Machine/Display.lean ====
section
/-! DEFINITION. The display instructions (43_display.md). -/

namespace Sys2Proof.Machine

/-- CLS (R200): all pixels off; `VF` is not written. -/
def execCls (s : State) (c : Config := Config.hardware) : Result :=
  .next { s.advance c with fb := Framebuffer.clear }

/-- DRW Vx,Vy,N (R202): `N` rows from `I`, drawn at `(V[X], V[Y])` as they were before `VF` is written; `VF` the
collision. `N = 0` reads and draws nothing and writes `VF = 0` (decision D13). -/
def execDrw (x y : Reg) (n : Nibble) (s : State) (c : Config := Config.hardware) : Result :=
  match readBytes c.addrPolicy s.mem s.i.toNat n.toNat with
  | .error a => raiseOutOfBounds a (.drw x y n) s
  | .ok rows =>
    let d := drawSprite (s.reg x) (s.reg y) rows s.fb
    .next ({ s.advance c with fb := d.1 }.setReg vf (flagByte d.2))

end Sys2Proof.Machine
end

