-- ==== Sys2Proof/Machine/Flow.lean ====
section
/-! DEFINITION. Control flow (40_flow.md). Each meaning is given the state before the cycle, makes the advance of `PC`
(R24, R90) and takes the configuration, by default this hardware's (JP needs none: its target is the word's own, R94). -/

namespace Sys2Proof.Machine

/-- A target of JP, CALL and JP V0 must be even (R129, R246). -/
def isEven (target : Nat) : Bool := target % 2 == 0

/-- `PC <- target`, or `MisalignedPC` (R122, R131). -/
def jumpTo (target : Nat) (i : Instr) (s : State) : Result :=
  if isEven target then .next { s with pc := toWord target } else raiseMisaligned (toWord target) i s

/-- SYS NNN (R120): the fault `UnknownOpcode`; under `SYS_POLICY = nop` only the advance. -/
def execSys (nnn : Addr) (s : State) (c : Config := Config.hardware) : Result :=
  match c.sysPolicy with
  | .fault => raiseUnknown (encodeWord (.sys nnn)) s
  | .nop => .next (s.advance c)

/-- RET (R121). -/
def execRet (s : State) (c : Config := Config.hardware) : Result :=
  match (s.advance c).pop with
  | .error e => raiseStack e .ret s
  | .ok (target, s') => .next { s' with pc := target }

/-- JP NNN (R122). -/
def execJp (nnn : Addr) (s : State) : Result := jumpTo nnn.toNat (.jp nnn) s

/-- CALL NNN (R123): the target is tested first, then the stack; the pushed address is the advanced `PC`. -/
def execCall (nnn : Addr) (s : State) (c : Config := Config.hardware) : Result :=
  if isEven nnn.toNat then
    match (s.advance c).push (s.advance c).pc with
    | .error e => raiseStack e (.call nnn) s
    | .ok s' => .next { s' with pc := toWord nnn.toNat }
  else raiseMisaligned (toWord nnn.toNat) (.call nnn) s

/-- SE Vx,NN (R125). -/
def execSeImm (x : Reg) (nn : Byte) (s : State) (c : Config := Config.hardware) : Result :=
  .next (s.skipIf (s.reg x == nn) c)

/-- SNE Vx,NN (R126). -/
def execSneImm (x : Reg) (nn : Byte) (s : State) (c : Config := Config.hardware) : Result :=
  .next (s.skipIf (s.reg x != nn) c)

/-- SE Vx,Vy (R127). -/
def execSeReg (x y : Reg) (s : State) (c : Config := Config.hardware) : Result :=
  .next (s.skipIf (s.reg x == s.reg y) c)

/-- SNE Vx,Vy (R128). -/
def execSneReg (x y : Reg) (s : State) (c : Config := Config.hardware) : Result :=
  .next (s.skipIf (s.reg x != s.reg y) c)

/-- JP V0,NNN (R131): the sum is an address like any other, masked to 12 bits (R62), or out of bounds under
`ADDR_POLICY = check` (R245; which of the two faults an odd sum beyond `0xFFF` raises there is log entry 12). -/
def execJpV0 (nnn : Addr) (s : State) (c : Config := Config.hardware) : Result :=
  match effAddr c.addrPolicy (nnn.toNat + (s.reg (jumpOffset c.jumpOffsetReg nnn)).toNat) with
  | .error a => raiseOutOfBounds a (.jpV0 nnn) s
  | .ok target => jumpTo target (.jpV0 nnn) s

end Sys2Proof.Machine
end

