-- ==== Sys2Proof/Machine/Index.lean ====
section
/-! DEFINITION. The index register, BCD, block store and load (42_index_memory.md). Addresses are `I + k` on unbounded
integers, then masked (R184); `I` is left unchanged by LD B, LD [I] and LD Vx,[I] (decision D15). -/

namespace Sys2Proof.Machine

/-- LD I,NNN (R180). -/
def execLdI (nnn : Addr) (s : State) (c : Config := Config.hardware) : Result :=
  .next { s.advance c with i := toWord nnn.toNat }

/-- ADD I,Vx (R181): modulo 65536, no flag. -/
def execAddI (x : Reg) (s : State) (c : Config := Config.hardware) : Result :=
  .next { s.advance c with i := s.i + (s.reg x).zeroExtend 16 }

/-- LD F,Vx (R182): the glyph of the low nibble. -/
def execLdF (x : Reg) (s : State) (c : Config := Config.hardware) : Result :=
  .next { s.advance c with i := glyphAddr (lowNibble (s.reg x)) }

/-- A store of `bytes` at `I`, shared by LD B and LD [I]: all or nothing (R184). -/
def storeAtI (bytes : List Byte) (i : Instr) (s : State) (c : Config) : Result :=
  match storeBytes c.addrPolicy s.mem s.i.toNat bytes with
  | .error e => raiseStore e i s
  | .ok mem => .next { s.advance c with mem := mem }

/-- LD B,Vx (R183). -/
def execLdB (x : Reg) (s : State) (c : Config := Config.hardware) : Result :=
  storeAtI (bcdDigits (s.reg x)) (.ldB x) s c

/-- LD [I],Vx (R185). -/
def execLdMemVx (x : Reg) (s : State) (c : Config := Config.hardware) : Result :=
  storeAtI (s.regsUpTo x) (.ldMemVx x) s c

/-- LD Vx,[I] (R186). -/
def execLdVxMem (x : Reg) (s : State) (c : Config := Config.hardware) : Result :=
  match readBytes c.addrPolicy s.mem s.i.toNat (x.toNat + 1) with
  | .error a => raiseOutOfBounds a (.ldVxMem x) s
  | .ok bytes => .next { s.advance c with v := setRegsFrom s.v 0 bytes }

end Sys2Proof.Machine
end

