-- ==== Sys2Proof/Machine/Input.lean ====
section
/-! DEFINITION. The key and timer instructions (44_input_timers.md). None of them faults. -/

namespace Sys2Proof.Machine

/-- SKP Vx (R220): the level of the key `V[X] & 0x0F` now. -/
def execSkp (x : Reg) (s : State) (c : Config := Config.hardware) : Result :=
  .next (s.skipIf (s.key (lowNibble (s.reg x))) c)

/-- SKNP Vx (R221). -/
def execSknp (x : Reg) (s : State) (c : Config := Config.hardware) : Result :=
  .next (s.skipIf (!s.key (lowNibble (s.reg x))) c)

/-- LD Vx,DT (R224). -/
def execLdVxDt (x : Reg) (s : State) (c : Config := Config.hardware) : Result :=
  .next ((s.advance c).setReg x s.dt)

/-- LD Vx,K (R222): with no key down the result is `pending` (`State.pending` says when) and nothing changes, `PC`
included, so the next cycle fetches the same instruction; else the lowest key down is stored (decisions D9, D10). -/
def execLdVxK (x : Reg) (s : State) (c : Config := Config.hardware) : Result :=
  match s.lowestKey with
  | none => .next s
  | some k => .next ((s.advance c).setReg x (BitVec.ofNat 8 k))

/-- LD DT,Vx (R225). -/
def execLdDtVx (x : Reg) (s : State) (c : Config := Config.hardware) : Result :=
  .next { s.advance c with dt := s.reg x }

/-- LD ST,Vx (R226). -/
def execLdStVx (x : Reg) (s : State) (c : Config := Config.hardware) : Result :=
  .next { s.advance c with st := s.reg x }

end Sys2Proof.Machine
end

