-- ==== Sys2Proof/Machine/Events.lean ====
section
/-! DEFINITION. The events of the other two agents, the outputs, and placing an instruction in memory (00_scope.md R6,
R7; 60_exceptions.md R250 to R255; 70_reset_and_hazards.md R280). -/

namespace Sys2Proof.Machine

/-! ## The Timer Clock -/

/-- A timer after one tick: toward zero, never below (R250). -/
def tickTimer (t : Byte) : Byte := if t = 0#8 then 0#8 else t - 1#8

/-- `Tick()` (R250). -/
def State.tick (s : State) : State := { s with dt := tickTimer s.dt, st := tickTimer s.st }

/-! ## The host -/

/-- `SetPressed(k, b)` (R253). -/
def State.setPressed (s : State) (k : Nibble) (down : Bool) : State :=
  { s with keys := s.keys.set k.toNat down k.isLt }

/-- `Reset(rom)` (R280): memory at its reset contents with the image at `0x200`, every register at its reset value; or
`LoadTooLarge` when the image does not fit (R66, R256). Nothing survives it (R282); the number of draws already made is
not the block's state but the model's own, and goes on, so that no draw comes twice (log entry 5). -/
def State.resetWith (draws : Nat) (rom : List Byte) : Result :=
  match State.reset.mem.load rom progBase with
  | none => .fault .loadTooLarge
  | some mem => .next { State.reset with mem := mem, rndCount := draws }

/-! ## The outputs (R7), functions of the state sampled between events (R204, R252) -/

/-- `tone` (R30, R252). -/
def State.tone (s : State) : Bool := s.st != 0#8

/-- The pixel `FB[y][x]` of the output `fb` (R32, R204). -/
def State.pixel (s : State) (x : Fin 64) (y : Fin 32) : Bool := Framebuffer.pixel s.fb x y

/-- Is the instruction a key wait? -/
def isKeyWait : Instr → Bool
  | .ldVxK _ => true
  | _ => false

/-- The Awaiting-keypress sub-state (R223): the instruction at `PC` is LD Vx,K and no key is down. A step in it
answers the same state, and its result is the output `pending` (R222); any other step that answers a next state has
the result `ok`. -/
def State.pending (s : State) : Bool :=
  match s.fetch Config.hardware with
  | .error _ => false
  | .ok op =>
    match decodeWord op with
    | none => false
    | some i => isKeyWait i && s.lowestKey.isNone

/-! ## The fault report (R240) -/

/-- The numeric code of a fault's kind (R240, decision D28). -/
def Fault.code : Fault → Nat
  | .outOfBounds _ _ _ => 1
  | .stackOverflow _ _ => 2
  | .stackUnderflow _ _ => 3
  | .unknownOpcode _ _ => 4
  | .loadTooLarge => 5
  | .misalignedPC _ _ _ => 6
  | .protectedWrite _ _ _ => 7

/-- The instruction word a report gives, where a word was fetched. -/
def Fault.op : Fault → Option Word
  | .outOfBounds _ op _ => op
  | .stackOverflow op _ => some op
  | .stackUnderflow op _ => some op
  | .unknownOpcode op _ => some op
  | .loadTooLarge => none
  | .misalignedPC _ op _ => some op
  | .protectedWrite _ op _ => some op

/-- The address a report gives: the one the faulting instruction was fetched from. -/
def Fault.pc : Fault → Option Word
  | .outOfBounds _ _ pc => some pc
  | .stackOverflow _ pc => some pc
  | .stackUnderflow _ pc => some pc
  | .unknownOpcode _ pc => some pc
  | .loadTooLarge => none
  | .misalignedPC _ _ pc => some pc
  | .protectedWrite _ _ pc => some pc

/-! ## Placing an instruction (for the host's `withFetchWord`) -/

/-- The state with the word of the low `nbits` bits of `w` at the address `PC` selects, high byte first. It stands for
the load of a program that `Reset` makes (log entry 7), so the write check of R65 does not apply to it. -/
def State.placeWord (s : State) (nbits w : Nat) : State :=
  let op : Word := BitVec.ofNat 16 (w % 2 ^ nbits)
  { s with mem := (s.mem.write (s.pc.toNat % memSize) (highByte op)).write ((s.pc.toNat + 1) % memSize) (lowByte op) }

end Sys2Proof.Machine
end

