-- ==== Sys2Proof/Machine/Step.lean ====
section
/-! DEFINITION. The event `Step` of the Interpreter: one fetch-decode-execute cycle (30_encoding.md R90). -/

namespace Sys2Proof.Machine

/-- One instruction cycle of this hardware. -/
def step (s : State) : Host.Outcome State Fault Refusal := cycle Config.hardware exec s

/-- `s` with the instruction of the bits `w` where the next step fetches. -/
def State.withFetchWord (s : State) (nbits w : Nat) : State := s.placeWord nbits w

end Sys2Proof.Machine
end

