-- ==== Sys2Proof/Machine/Configured.lean ====
section
/-! DEFINITION. The machine under any configuration: the same meanings, given another choice of the four policies of
92_eei_decisions.md. Under `Config.hardware` it is `exec` and `step` (Laws/Step.lean). -/

namespace Sys2Proof.Machine

/-- The execute part under a configuration. -/
def execUnder (c : Config) (i : Instr) (s : State) : Result :=
  match i with
  | .cls => execCls s c
  | .ret => execRet s c
  | .sys nnn => execSys nnn s c
  | .jp nnn => execJp nnn s
  | .call nnn => execCall nnn s c
  | .seImm x nn => execSeImm x nn s c
  | .sneImm x nn => execSneImm x nn s c
  | .seReg x y => execSeReg x y s c
  | .ldImm x nn => execLdImm x nn s c
  | .addImm x nn => execAddImm x nn s c
  | .ldReg x y => execLdReg x y s c
  | .orReg x y => execOrReg x y s c
  | .andReg x y => execAndReg x y s c
  | .xorReg x y => execXorReg x y s c
  | .addReg x y => execAddReg x y s c
  | .sub x y => execSub x y s c
  | .shr x y => execShr x y s c
  | .subn x y => execSubn x y s c
  | .shl x y => execShl x y s c
  | .sneReg x y => execSneReg x y s c
  | .ldI nnn => execLdI nnn s c
  | .jpV0 nnn => execJpV0 nnn s c
  | .rnd x nn => execRnd x nn s c
  | .drw x y n => execDrw x y n s c
  | .skp x => execSkp x s c
  | .sknp x => execSknp x s c
  | .ldVxDt x => execLdVxDt x s c
  | .ldVxK x => execLdVxK x s c
  | .ldDtVx x => execLdDtVx x s c
  | .ldStVx x => execLdStVx x s c
  | .addI x => execAddI x s c
  | .ldF x => execLdF x s c
  | .ldB x => execLdB x s c
  | .ldMemVx x => execLdMemVx x s c
  | .ldVxMem x => execLdVxMem x s c

/-- One cycle under a configuration (R90, R245). -/
def stepUnder (c : Config) (s : State) : Result := cycle c (execUnder c) s

end Sys2Proof.Machine
end

