-- ==== Sys2Proof/Machine/System.lean ====
section
/-! DEFINITION. The block with its three agents as atomic events in any order (60_exceptions.md R255), and what stands
between the events beside the state: the fault report the last step left (R258) and the absence of a defined state
before a Reset has succeeded (R256). -/

namespace Sys2Proof.Machine

/-- The events of the three agents (R6, R255). -/
inductive Event where
  | step
  | tick
  | setPressed (k : Nibble) (down : Bool)
  | reset (rom : List Byte)
  deriving DecidableEq, Repr

/-- One event at a state. -/
def State.event (s : State) : Event → Result
  | .step => step s
  | .tick => .next s.tick
  | .setPressed k down => .next (s.setPressed k down)
  | .reset rom => State.resetWith s.rndCount rom

/-- The block between events: `machine` is `none` while no state is defined (before the first Reset, or after one that
failed, R256); `report` is the fault report kept since the step that raised it (R258, decision D27), or, after a Reset that
failed, `LoadTooLarge` in its place (DESIGN CHOICE: the spec says neither what `fault` shows then nor whether an earlier
report stays; log entry 29). `draws` is the
model's own: the draws of `rnd` made before the last Reset (log entry 5). -/
structure System where
  machine : Option State
  report  : Option Fault
  draws   : Nat
  deriving DecidableEq, Repr

/-- What an event answers to the agent that drives it (R7, R90, R240). -/
inductive Reply where
  | ok
  | pending
  | fault (r : Fault)
  /-- The step the model refuses (`Refusal.stackPointerOutOfRange`; log entry 8). -/
  | refused (r : Refusal)
  /-- No state is defined: the block cannot be stepped until a Reset succeeds (R256). -/
  | noState
  deriving DecidableEq, Repr

/-- A step of the block: its reply, and the block after. A fault leaves the state as it was and is kept (R241, R258). -/
def System.stepAt (sys : System) (s : State) : Reply × System :=
  match step s with
  | .next t => (if s.pending then .pending else .ok, { sys with machine := some t })
  | .fault r => (.fault r, { sys with report := some r })
  | .refused r => (.refused r, sys)

/-- The draws of `rnd` made so far (log entry 5). -/
def System.drawn (sys : System) : Nat :=
  match sys.machine with
  | none => sys.draws
  | some s => s.rndCount

/-- One event at the block. `Tick` and `SetPressed` go on at a stopped machine (R250, R258) and never clear its report;
a Reset that succeeds begins anew (R282), one that fails leaves no state (R256). DESIGN CHOICE, log entry 29: a Reset that
fails puts `LoadTooLarge` in place of the kept report. -/
def System.event (sys : System) : Event → Reply × System
  | .step =>
    match sys.machine with
    | none => (.noState, sys)
    | some s => sys.stepAt s
  | .tick =>
    match sys.machine with
    | none => (.noState, sys)
    | some s => (.ok, { sys with machine := some s.tick })
  | .setPressed k down =>
    match sys.machine with
    | none => (.noState, sys)
    | some s => (.ok, { sys with machine := some (s.setPressed k down) })
  | .reset rom =>
    match State.resetWith sys.drawn rom with
    | .next s => (.ok, ⟨some s, none, sys.drawn⟩)
    | .fault r => (.fault r, ⟨none, some r, sys.drawn⟩)
    | .refused r => (.refused r, sys)

/-- The block before its first Reset. -/
def System.initial : System := ⟨none, none, 0⟩

/-- The block after a sequence of events, first one first. -/
def System.run (sys : System) : List Event → System
  | [] => sys
  | e :: rest => (sys.event e).2.run rest

end Sys2Proof.Machine
end

