-- ==== Sys2Proof/Safety.lean ====
section
/-! DEFINITION. The terms claims use: the invariants of 10_state.md R38, what a change of the state leaves alone (R39), and
a safe run. -/

namespace Sys2Proof.Machine

/-! ## The invariants (R38) -/

/-- `PC[15:12] = 0` and `PC[0] = 0` (R38.1, R24). -/
def State.PcWf (s : State) : Prop := s.pc.toNat ≤ 0xFFE ∧ s.pc.toNat % 2 = 0

/-- `SP <= 16`, and every live stack entry is even and at most `0xFFE` (R38.2, R38.3). -/
def State.StackWf (s : State) : Prop :=
  s.sp.toNat ≤ 16 ∧ ∀ j : Fin 16, j.val < s.sp.toNat → s.stack[j].toNat ≤ 0xFFE ∧ s.stack[j].toNat % 2 = 0

/-- `MEM[0x000..0x1FF]` equals its reset value (R38.4, R65). -/
def State.LowMemoryWf (s : State) : Prop := ∀ a, a < progBase → s.mem.read a = Memory.unlisted a

/-- The invariants of R38, and the canonical form of the model's memory. -/
structure State.Inv (s : State) : Prop where
  pc     : s.PcWf
  stack  : s.StackWf
  low    : s.LowMemoryWf
  memory : s.mem.wf = true

/-! ## What a change of the state leaves alone -/

/-- Every `V` register is unchanged. -/
def SameRegs (s t : State) : Prop := ∀ r, t.reg r = s.reg r

/-- `I` is unchanged. -/
def SameIndex (s t : State) : Prop := t.i = s.i

/-- The stack and its pointer are unchanged. -/
def SameStack (s t : State) : Prop := t.sp = s.sp ∧ t.stack = s.stack

/-- Both timers are unchanged. -/
def SameTimers (s t : State) : Prop := t.dt = s.dt ∧ t.st = s.st

/-- Every byte of memory reads as before. -/
def SameMemory (s t : State) : Prop := ∀ a, t.mem.read a = s.mem.read a

/-- Every pixel is unchanged. -/
def SameScreen (s t : State) : Prop := ∀ x y, t.pixel x y = s.pixel x y

/-- Every key state is unchanged. -/
def SameKeys (s t : State) : Prop := ∀ k, t.key k = s.key k

/-- No random byte has been drawn (the model's own field). -/
def SameDraws (s t : State) : Prop := t.rndCount = s.rndCount

/-- Nothing but the `V` registers and `PC` has changed. -/
def OnlyRegs (s t : State) : Prop :=
  SameIndex s t ∧ SameStack s t ∧ SameTimers s t ∧ SameMemory s t ∧ SameScreen s t ∧ SameKeys s t ∧ SameDraws s t

/-- Nothing but `PC` has changed. -/
def OnlyPc (s t : State) : Prop := SameRegs s t ∧ OnlyRegs s t

/-- Nothing but `I` and `PC` has changed. -/
def OnlyIndex (s t : State) : Prop :=
  SameRegs s t ∧ SameStack s t ∧ SameTimers s t ∧ SameMemory s t ∧ SameScreen s t ∧ SameKeys s t ∧ SameDraws s t

/-- Nothing but the stack, its pointer and `PC` has changed. -/
def OnlyStack (s t : State) : Prop :=
  SameRegs s t ∧ SameIndex s t ∧ SameTimers s t ∧ SameMemory s t ∧ SameScreen s t ∧ SameKeys s t ∧ SameDraws s t

/-- Nothing but memory and `PC` has changed. -/
def OnlyMemory (s t : State) : Prop :=
  SameRegs s t ∧ SameIndex s t ∧ SameStack s t ∧ SameTimers s t ∧ SameScreen s t ∧ SameKeys s t ∧ SameDraws s t

/-- Nothing but pixels and `PC` has changed. -/
def OnlyScreen (s t : State) : Prop :=
  SameRegs s t ∧ SameIndex s t ∧ SameStack s t ∧ SameTimers s t ∧ SameMemory s t ∧ SameKeys s t ∧ SameDraws s t

/-- Nothing but the timers has changed, and `PC`. -/
def OnlyTimers (s t : State) : Prop :=
  SameRegs s t ∧ SameIndex s t ∧ SameStack s t ∧ SameMemory s t ∧ SameScreen s t ∧ SameKeys s t ∧ SameDraws s t

/-- `PC` has advanced by `d` modulo `0x1000` (R24, R130). -/
def PcBy (d : Nat) (s t : State) : Prop := t.pc.toNat = (s.pc.toNat + d) % 0x1000

/-- The word of the two bytes a step fetches: `MEM[PC] :: MEM[PC + 1]` (R70), addresses masked (R62). -/
def wordAtPc (s : State) : Word :=
  s.mem.read (s.pc.toNat % 0x1000) ++ s.mem.read ((s.pc.toNat + 1) % 0x1000)

/-- The words of the table of 30_encoding.md R99. -/
def InUnknownTable (op : Word) : Prop :=
  (op.toNat / 0x1000 = 0x5 ∧ op.toNat % 16 ≠ 0) ∨
    (op.toNat / 0x1000 = 0x8 ∧ op.toNat % 16 ∈ [0x8, 0x9, 0xA, 0xB, 0xC, 0xD, 0xF]) ∨
    (op.toNat / 0x1000 = 0x9 ∧ op.toNat % 16 ≠ 0) ∨
    (op.toNat / 0x1000 = 0xE ∧ op.toNat % 256 ∉ [0x9E, 0xA1]) ∨
    (op.toNat / 0x1000 = 0xF ∧ op.toNat % 256 ∉ [0x07, 0x0A, 0x15, 0x18, 0x1E, 0x29, 0x33, 0x55, 0x65])

/-! ## Sprites (43_display.md R201) -/

/-- A 1-bit of the sprite `rows` drawn at `(x0, y0)` falls on the pixel `(px, py)`: bit `7 - c` of row `r` falls on
column `(x0 + c) mod 64` of row `(y0 + r) mod 32` (R201). -/
def Covers (x0 y0 : Byte) (rows : List Byte) (px : Fin 64) (py : Fin 32) : Prop :=
  ∃ r c, ∃ h : r < rows.length, c < 8 ∧ rows[r].getLsbD (7 - c) = true ∧
    (x0.toNat + c) % 64 = px.val ∧ (y0.toNat + r) % 32 = py.val

/-- The `n` bytes at `I`, addresses masked (R184, R202). -/
def bytesAtI (s : State) (n : Nat) : List Byte := (List.range n).map (fun k => s.mem.read ((s.i.toNat + k) % 0x1000))

/-! ## Which instruction may write what (10_state.md R22, R39) -/

/-- The register an instruction names as its destination, where it has one. -/
def destination : Instr → Option Reg
  | .cls => none
  | .ret => none
  | .sys _ => none
  | .jp _ => none
  | .call _ => none
  | .seImm _ _ => none
  | .sneImm _ _ => none
  | .seReg _ _ => none
  | .ldImm x _ => some x
  | .addImm x _ => some x
  | .ldReg x _ => some x
  | .orReg x _ => some x
  | .andReg x _ => some x
  | .xorReg x _ => some x
  | .addReg x _ => some x
  | .sub x _ => some x
  | .shr x _ => some x
  | .subn x _ => some x
  | .shl x _ => some x
  | .sneReg _ _ => none
  | .ldI _ => none
  | .jpV0 _ => none
  | .rnd x _ => some x
  | .drw _ _ _ => none
  | .skp _ => none
  | .sknp _ => none
  | .ldVxDt x => some x
  | .ldVxK x => some x
  | .ldDtVx _ => none
  | .ldStVx _ => none
  | .addI _ => none
  | .ldF _ => none
  | .ldB _ => none
  | .ldMemVx _ => none
  | .ldVxMem _ => none

/-- The instructions that write `VF` as a side effect (R22). -/
def WritesFlag (i : Instr) : Prop :=
  (∃ x y, i = .addReg x y) ∨ (∃ x y, i = .sub x y) ∨ (∃ x y, i = .subn x y) ∨ (∃ x y, i = .shr x y) ∨
    (∃ x y, i = .shl x y) ∨ ∃ x y n, i = .drw x y n

/-- The instructions that assign `PC` an absolute target (R129). -/
def Transfers (i : Instr) : Prop :=
  (∃ nnn, i = .jp nnn) ∨ (∃ nnn, i = .call nnn) ∨ i = .ret ∨ ∃ nnn, i = .jpV0 nnn

/-- The six skips (R124). -/
def Skips (i : Instr) : Prop :=
  (∃ x nn, i = .seImm x nn) ∨ (∃ x nn, i = .sneImm x nn) ∨ (∃ x y, i = .seReg x y) ∨ (∃ x y, i = .sneReg x y) ∨
    (∃ x, i = .skp x) ∨ ∃ x, i = .sknp x

/-- The instructions that store to memory (R60). -/
def Stores (i : Instr) : Prop := (∃ x, i = .ldB x) ∨ ∃ x, i = .ldMemVx x

/-- The instructions that read or write a timer (R29, R30). -/
def UsesTimer (i : Instr) : Prop := (∃ x, i = .ldVxDt x) ∨ (∃ x, i = .ldDtVx x) ∨ ∃ x, i = .ldStVx x

/-- The instructions that read a key (R33). -/
def ReadsKeys (i : Instr) : Prop := (∃ x, i = .skp x) ∨ (∃ x, i = .sknp x) ∨ ∃ x, i = .ldVxK x

/-- The events of the Timer Clock and of the keypad. -/
def Outside (e : Event) : Prop := e = .tick ∨ ∃ k b, e = .setPressed k b

/-! ## A safe run -/

/-- A step that ends in no fault and no refusal. -/
def State.StepsOk (s : State) : Prop := ∃ t, step s = .next t

/-- The block has a state and no fault has stopped it. -/
def System.Running (sys : System) : Prop := sys.machine.isSome = true ∧ sys.report = none

/-- A safe run: the block is running after every prefix of the events. -/
def System.SafeRun (sys : System) (events : List Event) : Prop :=
  ∀ n, n ≤ events.length → (sys.run (events.take n)).Running

end Sys2Proof.Machine
end

