-- ==== Sys2Proof/Certificates/Slice0/Obligations.lean ====
section
/-! DEFINITION. The statements for the provers. Each says which rule of spec/ it formalises; in all of them the machine
is this hardware's (`Config.hardware`) unless another configuration is written out. -/

open Sys2Proof Sys2Proof.Machine

/-! ## Decoding and encoding -/

/-- Decode and encode agree: the bytes of a well-formed instruction decode to it, every operand at every value, and the
bytes after them are left (30_encoding.md R91 to R96, 20_memory.md R69). -/
def Obligations.DecodeOfEncodeGivesTheInstructionBack : Prop :=
  ∀ (i : Instr) (rest : List Byte), i.wellFormed = true → decode (encode i ++ rest) = .ok (i, rest)

/-- The other direction: a word that decodes is the word of the instruction it decodes to, which is well-formed, so no
two words decode to one instruction (30_encoding.md R102). -/
def Obligations.DecodedWordIsTheWordOfItsInstruction : Prop :=
  ∀ (op : Word) (i : Instr), decodeWord op = some i → i.wellFormed = true ∧ encodeWord i = op

/-- The decoder, which goes by families, is the opcode map read as a table in priority order: same instruction, same
unknown words (30_encoding.md R95, R96; INDEX.md "Reading opcode_table.json"). -/
def Obligations.DecoderFollowsTheOpcodeMap : Prop :=
  ∀ op : Word, (decodeWord op).map Instr.mnemonic = (opcodeRow op).map OpcodeRow.mnemonic

/-- A word is unknown exactly when it is one of the words of the table of 30_encoding.md R99, and a step that fetches such
a word raises `UnknownOpcode`. -/
def Obligations.UnknownWordsAreThoseOfTheTable : Prop :=
  ∀ op : Word,
    (decodeWord op = none ↔ InUnknownTable op) ∧
    ∀ s : State, wordAtPc s = op → InUnknownTable op → step s = .fault (.unknownOpcode op s.pc)

/-- The five words the source prints decode as it glosses them, two bytes each (30_encoding.md R97). -/
def Obligations.PrintedWordsDecodeAsGlossed : Prop :=
  ∀ rest : List Byte,
    decode (0x60#8 :: 0x0A#8 :: rest) = .ok (.ldImm 0x0#4 0x0A#8, rest) ∧
    decode (0xA2#8 :: 0x00#8 :: rest) = .ok (.ldI 0x200#12, rest) ∧
    decode (0xD0#8 :: 0x05#8 :: rest) = .ok (.drw 0x0#4 0x0#4 0x5#4, rest) ∧
    decode (0x12#8 :: 0x04#8 :: rest) = .ok (.jp 0x204#12, rest) ∧
    decode (0xFF#8 :: 0xFF#8 :: rest) = .error (.unknown 0xFFFF#16)

/-! ## The cycle -/

/-- When the two bytes at `PC` decode to an instruction, the step is `exec` of it at the same state; the advance of `PC`
is inside `exec` (30_encoding.md R90, 20_memory.md R70). At the block, whatever report it holds, a step that answers a
next state puts that state in place of the old one, changes nothing else, and replies `ok`, or `pending` when the state
was awaiting a key (R90, 60_exceptions.md R255). -/
def Obligations.StepRunsTheDecodedInstruction : Prop :=
  ∀ s : State,
    (∀ i : Instr, decode [s.mem.read (s.pc.toNat % 0x1000), s.mem.read ((s.pc.toNat + 1) % 0x1000)] = .ok (i, []) →
      step s = exec i s) ∧
    ∀ (sys : System) (t : State), sys.machine = some s → step s = .next t →
      (s.pending = false → sys.event .step = (.ok, { sys with machine := some t })) ∧
      (s.pending = true → sys.event .step = (.pending, { sys with machine := some t }))

/-- `UnknownOpcode` is the result of a step whose word is unknown and of one whose word is SYS, with the word and the
address it was fetched from (60_exceptions.md R242). -/
def Obligations.UnknownAndSysWordsRaiseUnknownOpcode : Prop :=
  ∀ s : State, (decodeWord (wordAtPc s) = none ∨ ∃ nnn, decodeWord (wordAtPc s) = some (.sys nnn)) →
    step s = .fault (.unknownOpcode (wordAtPc s) s.pc)

/-! ## Control flow (40_flow.md) -/

/-- SYS NNN always faults; under `SYS_POLICY = nop` it only advances `PC` (R120). -/
def Obligations.SysAlwaysRaisesUnknownOpcode : Prop :=
  ∀ (nnn : Addr) (s : State),
    (nnn ≠ 0x0E0#12 → nnn ≠ 0x0EE#12 → decodeWord (0x0#4 ++ nnn) = some (.sys nnn)) ∧
    exec (.sys nnn) s = .fault (.unknownOpcode (0x0#4 ++ nnn) s.pc) ∧
    ∃ t, execUnder { Config.hardware with sysPolicy := .nop } (.sys nnn) s = .next t ∧ PcBy 2 s t ∧ OnlyPc s t

/-- RET (R121): underflow on the empty stack; else the newest entry goes to `PC`, and it is not cleared. -/
def Obligations.RetPopsTheReturnAddress : Prop :=
  decodeWord 0x00EE#16 = some .ret ∧
  ∀ s : State,
    (s.sp.toNat = 0 → exec .ret s = .fault (.stackUnderflow 0x00EE#16 s.pc)) ∧
    ∀ k : Fin 16, s.sp.toNat = k.val + 1 →
      ∃ t, exec .ret s = .next t ∧ t.pc = s.stack[k] ∧ t.sp.toNat = k.val ∧ t.stack = s.stack ∧ OnlyStack s t

/-- JP NNN (R122). -/
def Obligations.JpAssignsAnEvenTarget : Prop :=
  ∀ (nnn : Addr) (s : State),
    decodeWord (0x1#4 ++ nnn) = some (.jp nnn) ∧
    (nnn.toNat % 2 = 0 → ∃ t, exec (.jp nnn) s = .next t ∧ t.pc = nnn.setWidth 16 ∧ OnlyPc s t) ∧
    (nnn.toNat % 2 = 1 → exec (.jp nnn) s = .fault (.misalignedPC (nnn.setWidth 16) (0x1#4 ++ nnn) s.pc))

/-- CALL NNN (R123): the target is tested first, then the stack; the address after the CALL is pushed. -/
def Obligations.CallPushesTheReturnAddress : Prop :=
  ∀ (nnn : Addr) (s : State),
    decodeWord (0x2#4 ++ nnn) = some (.call nnn) ∧
    (nnn.toNat % 2 = 0 → s.sp.toNat < 16 →
      ∃ t, exec (.call nnn) s = .next t ∧ t.pc = nnn.setWidth 16 ∧ t.sp.toNat = s.sp.toNat + 1 ∧
        (∀ j : Fin 16, t.stack[j].toNat =
          if j.val = s.sp.toNat then (s.pc.toNat + 2) % 0x1000 else s.stack[j].toNat) ∧ OnlyStack s t) ∧
    (nnn.toNat % 2 = 1 → exec (.call nnn) s = .fault (.misalignedPC (nnn.setWidth 16) (0x2#4 ++ nnn) s.pc)) ∧
    (nnn.toNat % 2 = 0 → s.sp.toNat = 16 → exec (.call nnn) s = .fault (.stackOverflow (0x2#4 ++ nnn) s.pc))

/-- THE MODEL'S CHOICE, log entry 8: with `SP` in 17..255, which the spec says never occurs (10_state.md R25), RET, and
CALL with an even target, are refused by name. -/
def Obligations.StackPointerOutOfRangeIsRefused : Prop :=
  ∀ (nnn : Addr) (s : State), 16 < s.sp.toNat →
    exec .ret s = .refused (.stackPointerOutOfRange s.sp) ∧
    (nnn.toNat % 2 = 0 → exec (.call nnn) s = .refused (.stackPointerOutOfRange s.sp))

/-- SE Vx,NN and SNE Vx,NN (R125, R126). -/
def Obligations.SkipsOnAnImmediate : Prop :=
  ∀ (x : Reg) (nn : Byte) (s : State),
    decodeWord (0x3#4 ++ (x ++ nn)) = some (.seImm x nn) ∧ decodeWord (0x4#4 ++ (x ++ nn)) = some (.sneImm x nn) ∧
    (∃ t, exec (.seImm x nn) s = .next t ∧ PcBy (if s.reg x = nn then 4 else 2) s t ∧ OnlyPc s t) ∧
    ∃ t, exec (.sneImm x nn) s = .next t ∧ PcBy (if s.reg x ≠ nn then 4 else 2) s t ∧ OnlyPc s t

/-- SE Vx,Vy and SNE Vx,Vy (R127, R128). -/
def Obligations.SkipsOnTwoRegisters : Prop :=
  ∀ (x y : Reg) (s : State),
    decodeWord (0x5#4 ++ (x ++ (y ++ 0x0#4))) = some (.seReg x y) ∧
    decodeWord (0x9#4 ++ (x ++ (y ++ 0x0#4))) = some (.sneReg x y) ∧
    (∃ t, exec (.seReg x y) s = .next t ∧ PcBy (if s.reg x = s.reg y then 4 else 2) s t ∧ OnlyPc s t) ∧
    ∃ t, exec (.sneReg x y) s = .next t ∧ PcBy (if s.reg x ≠ s.reg y then 4 else 2) s t ∧ OnlyPc s t

/-- JP V0,NNN (R131): the sum modulo `0x1000` must be even. Under `JUMP_OFFSET_REG = VX` the same with `V[X]`, `X` the top
nibble of `NNN`. -/
def Obligations.JpV0AddsTheOffsetRegister : Prop :=
  ∀ (nnn : Addr) (s : State),
    decodeWord (0xB#4 ++ nnn) = some (.jpV0 nnn) ∧
    ((nnn.toNat + (s.reg 0x0#4).toNat) % 2 = 0 →
      ∃ t, exec (.jpV0 nnn) s = .next t ∧ t.pc.toNat = (nnn.toNat + (s.reg 0x0#4).toNat) % 0x1000 ∧ OnlyPc s t) ∧
    ((nnn.toNat + (s.reg 0x0#4).toNat) % 2 = 1 →
      exec (.jpV0 nnn) s =
        .fault (.misalignedPC (BitVec.ofNat 16 ((nnn.toNat + (s.reg 0x0#4).toNat) % 0x1000)) (0xB#4 ++ nnn) s.pc)) ∧
    ∀ x : Reg, x.toNat = nnn.toNat / 0x100 →
      ((nnn.toNat + (s.reg x).toNat) % 2 = 0 →
        ∃ t, execUnder { Config.hardware with jumpOffsetReg := .vx } (.jpV0 nnn) s = .next t ∧
          t.pc.toNat = (nnn.toNat + (s.reg x).toNat) % 0x1000 ∧ OnlyPc s t) ∧
      ((nnn.toNat + (s.reg x).toNat) % 2 = 1 →
        execUnder { Config.hardware with jumpOffsetReg := .vx } (.jpV0 nnn) s =
          .fault (.misalignedPC (BitVec.ofNat 16 ((nnn.toNat + (s.reg x).toNat) % 0x1000)) (0xB#4 ++ nnn) s.pc))

/-! ## Register load, arithmetic, logic, shift and random (41_alu.md) -/

/-- LD Vx,NN and LD Vx,Vy (R151, R153). -/
def Obligations.LoadsWriteOneRegister : Prop :=
  ∀ (x y : Reg) (nn : Byte) (s : State),
    decodeWord (0x6#4 ++ (x ++ nn)) = some (.ldImm x nn) ∧
    decodeWord (0x8#4 ++ (x ++ (y ++ 0x0#4))) = some (.ldReg x y) ∧
    (∃ t, exec (.ldImm x nn) s = .next t ∧ PcBy 2 s t ∧ OnlyRegs s t ∧
      ∀ r, t.reg r = if r = x then nn else s.reg r) ∧
    ∃ t, exec (.ldReg x y) s = .next t ∧ PcBy 2 s t ∧ OnlyRegs s t ∧
      ∀ r, t.reg r = if r = x then s.reg y else s.reg r

/-- ADD Vx,NN (R152): modulo 256, and `VF` is not written unless it is the destination. -/
def Obligations.AddImmediateWritesNoFlag : Prop :=
  ∀ (x : Reg) (nn : Byte) (s : State),
    decodeWord (0x7#4 ++ (x ++ nn)) = some (.addImm x nn) ∧
    ∃ t, exec (.addImm x nn) s = .next t ∧ PcBy 2 s t ∧ OnlyRegs s t ∧
      ∀ r, (t.reg r).toNat = if r = x then ((s.reg x).toNat + nn.toNat) % 256 else (s.reg r).toNat

/-- OR, AND and XOR (R154 to R156): bit by bit, no flag. -/
def Obligations.LogicWritesNoFlag : Prop :=
  ∀ (x y : Reg) (s : State),
    decodeWord (0x8#4 ++ (x ++ (y ++ 0x1#4))) = some (.orReg x y) ∧
    decodeWord (0x8#4 ++ (x ++ (y ++ 0x2#4))) = some (.andReg x y) ∧
    decodeWord (0x8#4 ++ (x ++ (y ++ 0x3#4))) = some (.xorReg x y) ∧
    (∃ t, exec (.orReg x y) s = .next t ∧ PcBy 2 s t ∧ OnlyRegs s t ∧ (∀ r, r ≠ x → t.reg r = s.reg r) ∧
      ∀ k, k < 8 → (t.reg x).getLsbD k = ((s.reg x).getLsbD k || (s.reg y).getLsbD k)) ∧
    (∃ t, exec (.andReg x y) s = .next t ∧ PcBy 2 s t ∧ OnlyRegs s t ∧ (∀ r, r ≠ x → t.reg r = s.reg r) ∧
      ∀ k, k < 8 → (t.reg x).getLsbD k = ((s.reg x).getLsbD k && (s.reg y).getLsbD k)) ∧
    ∃ t, exec (.xorReg x y) s = .next t ∧ PcBy 2 s t ∧ OnlyRegs s t ∧ (∀ r, r ≠ x → t.reg r = s.reg r) ∧
      ∀ k, k < 8 → (t.reg x).getLsbD k = ((s.reg x).getLsbD k != (s.reg y).getLsbD k)

/-- ADD Vx,Vy (R157): the sum modulo 256 to `V[X]`, the carry to `VF`, which the flag takes even when `X = 15`. -/
def Obligations.AddRegistersWritesTheCarry : Prop :=
  ∀ (x y : Reg) (s : State),
    decodeWord (0x8#4 ++ (x ++ (y ++ 0x4#4))) = some (.addReg x y) ∧
    ∃ t, exec (.addReg x y) s = .next t ∧ PcBy 2 s t ∧ OnlyRegs s t ∧
      ∀ r, (t.reg r).toNat =
        if r = 0xF#4 then (if (s.reg x).toNat + (s.reg y).toNat > 255 then 1 else 0)
        else if r = x then ((s.reg x).toNat + (s.reg y).toNat) % 256
        else (s.reg r).toNat

/-- SUB and SUBN (R158, R160): the difference modulo 256 to `V[X]`, 1 to `VF` when there is no borrow and 0 when there
is, also when `X = 15`. -/
def Obligations.SubtractionsWriteNoBorrow : Prop :=
  ∀ (x y : Reg) (s : State),
    decodeWord (0x8#4 ++ (x ++ (y ++ 0x5#4))) = some (.sub x y) ∧
    decodeWord (0x8#4 ++ (x ++ (y ++ 0x7#4))) = some (.subn x y) ∧
    (∃ t, exec (.sub x y) s = .next t ∧ PcBy 2 s t ∧ OnlyRegs s t ∧
      ∀ r, (t.reg r).toNat =
        if r = 0xF#4 then (if (s.reg x).toNat ≥ (s.reg y).toNat then 1 else 0)
        else if r = x then ((s.reg x).toNat + 256 - (s.reg y).toNat) % 256
        else (s.reg r).toNat) ∧
    ∃ t, exec (.subn x y) s = .next t ∧ PcBy 2 s t ∧ OnlyRegs s t ∧
      ∀ r, (t.reg r).toNat =
        if r = 0xF#4 then (if (s.reg y).toNat ≥ (s.reg x).toNat then 1 else 0)
        else if r = x then ((s.reg y).toNat + 256 - (s.reg x).toNat) % 256
        else (s.reg r).toNat

/-- SHR (R159): `V[Y]` (under `SHIFT_SRC = VX`: `V[X]`) halved to `V[X]`, the bit shifted out to `VF`. -/
def Obligations.ShiftRightShiftsTheSource : Prop :=
  ∀ (x y : Reg) (s : State),
    decodeWord (0x8#4 ++ (x ++ (y ++ 0x6#4))) = some (.shr x y) ∧
    (∃ t, exec (.shr x y) s = .next t ∧ PcBy 2 s t ∧ OnlyRegs s t ∧
      ∀ r, (t.reg r).toNat =
        if r = 0xF#4 then (s.reg y).toNat % 2 else if r = x then (s.reg y).toNat / 2 else (s.reg r).toNat) ∧
    ∃ t, execUnder { Config.hardware with shiftSrc := .vx } (.shr x y) s = .next t ∧ PcBy 2 s t ∧ OnlyRegs s t ∧
      ∀ r, (t.reg r).toNat =
        if r = 0xF#4 then (s.reg x).toNat % 2 else if r = x then (s.reg x).toNat / 2 else (s.reg r).toNat

/-- SHL (R161): `V[Y]` (under `SHIFT_SRC = VX`: `V[X]`) doubled modulo 256 to `V[X]`, the bit shifted out to `VF`. -/
def Obligations.ShiftLeftShiftsTheSource : Prop :=
  ∀ (x y : Reg) (s : State),
    decodeWord (0x8#4 ++ (x ++ (y ++ 0xE#4))) = some (.shl x y) ∧
    (∃ t, exec (.shl x y) s = .next t ∧ PcBy 2 s t ∧ OnlyRegs s t ∧
      ∀ r, (t.reg r).toNat =
        if r = 0xF#4 then (s.reg y).toNat / 128 else if r = x then 2 * (s.reg y).toNat % 256 else (s.reg r).toNat) ∧
    ∃ t, execUnder { Config.hardware with shiftSrc := .vx } (.shl x y) s = .next t ∧ PcBy 2 s t ∧ OnlyRegs s t ∧
      ∀ r, (t.reg r).toNat =
        if r = 0xF#4 then (s.reg x).toNat / 128 else if r = x then 2 * (s.reg x).toNat % 256 else (s.reg r).toNat

/-- RND Vx,NN (R162): the byte `rnd` presents, masked by `NN`, in `V[X]`; bits where `NN` has a 0 are 0. Which draw of
the free input it is, is the model's own counter (log entry 5); nothing is said of the byte. -/
def Obligations.RandomByteIsMasked : Prop :=
  ∀ (x : Reg) (nn : Byte) (s : State),
    decodeWord (0xC#4 ++ (x ++ nn)) = some (.rnd x nn) ∧
    ∃ t, exec (.rnd x nn) s = .next t ∧ PcBy 2 s t ∧ t.rndCount = s.rndCount + 1 ∧
      SameIndex s t ∧ SameStack s t ∧ SameTimers s t ∧ SameMemory s t ∧ SameScreen s t ∧ SameKeys s t ∧
      (∀ r, t.reg r = if r = x then Config.rnd s.rndCount &&& nn else s.reg r) ∧
      ∀ k, nn.getLsbD k = false → (t.reg x).getLsbD k = false

/-! ## Index register, BCD, block moves (42_index_memory.md) -/

/-- LD I,NNN (R180). -/
def Obligations.LoadIndexSetsI : Prop :=
  ∀ (nnn : Addr) (s : State),
    decodeWord (0xA#4 ++ nnn) = some (.ldI nnn) ∧
    ∃ t, exec (.ldI nnn) s = .next t ∧ PcBy 2 s t ∧ OnlyIndex s t ∧ t.i = nnn.setWidth 16

/-- ADD I,Vx (R181): modulo 65536, no flag. -/
def Obligations.AddToIndexWrapsAt16Bits : Prop :=
  ∀ (x : Reg) (s : State),
    decodeWord (0xF#4 ++ (x ++ 0x1E#8)) = some (.addI x) ∧
    ∃ t, exec (.addI x) s = .next t ∧ PcBy 2 s t ∧ OnlyIndex s t ∧
      t.i.toNat = (s.i.toNat + (s.reg x).toNat) % 0x10000

/-- LD F,Vx (R182): the glyph of the digit in the low nibble. -/
def Obligations.LoadFontPointsAtTheGlyph : Prop :=
  ∀ (x : Reg) (s : State),
    decodeWord (0xF#4 ++ (x ++ 0x29#8)) = some (.ldF x) ∧
    ∃ t, exec (.ldF x) s = .next t ∧ PcBy 2 s t ∧ OnlyIndex s t ∧ t.i.toNat = 5 * ((s.reg x).toNat % 16)

/-- LD B,Vx (R183): with all three addresses at `0x200` or above, the three digits are stored, hundreds first, and no
other byte changes; else the first address below `0x200` is reported and nothing is stored. -/
def Obligations.BcdStoresThreeDigits : Prop :=
  ∀ (x : Reg) (s : State),
    decodeWord (0xF#4 ++ (x ++ 0x33#8)) = some (.ldB x) ∧
    (s.mem.wf = true → (∀ k, k < 3 → 0x200 ≤ (s.i.toNat + k) % 0x1000) →
      ∃ t, exec (.ldB x) s = .next t ∧ PcBy 2 s t ∧ OnlyMemory s t ∧
        (t.mem.read (s.i.toNat % 0x1000)).toNat = (s.reg x).toNat / 100 ∧
        (t.mem.read ((s.i.toNat + 1) % 0x1000)).toNat = (s.reg x).toNat / 10 % 10 ∧
        (t.mem.read ((s.i.toNat + 2) % 0x1000)).toNat = (s.reg x).toNat % 10 ∧
        ∀ a, (∀ k, k < 3 → a ≠ (s.i.toNat + k) % 0x1000) → t.mem.read a = s.mem.read a) ∧
    ∀ k, k < 3 → (s.i.toNat + k) % 0x1000 < 0x200 → (∀ j, j < k → 0x200 ≤ (s.i.toNat + j) % 0x1000) →
      exec (.ldB x) s =
        .fault (.protectedWrite (BitVec.ofNat 16 ((s.i.toNat + k) % 0x1000)) (0xF#4 ++ (x ++ 0x33#8)) s.pc)

/-- LD [I],Vx (R185): with every address at `0x200` or above, `V[k]` is stored at `I + k` for `k` up to `X`, and no other
byte changes; else the first address below `0x200` is reported and nothing is stored. -/
def Obligations.DumpStoresTheRegisters : Prop :=
  ∀ (x : Reg) (s : State),
    decodeWord (0xF#4 ++ (x ++ 0x55#8)) = some (.ldMemVx x) ∧
    (s.mem.wf = true → (∀ k, k ≤ x.toNat → 0x200 ≤ (s.i.toNat + k) % 0x1000) →
      ∃ t, exec (.ldMemVx x) s = .next t ∧ PcBy 2 s t ∧ OnlyMemory s t ∧
        (∀ r : Reg, r.toNat ≤ x.toNat → t.mem.read ((s.i.toNat + r.toNat) % 0x1000) = s.reg r) ∧
        ∀ a, (∀ k, k ≤ x.toNat → a ≠ (s.i.toNat + k) % 0x1000) → t.mem.read a = s.mem.read a) ∧
    ∀ k, k ≤ x.toNat → (s.i.toNat + k) % 0x1000 < 0x200 → (∀ j, j < k → 0x200 ≤ (s.i.toNat + j) % 0x1000) →
      exec (.ldMemVx x) s =
        .fault (.protectedWrite (BitVec.ofNat 16 ((s.i.toNat + k) % 0x1000)) (0xF#4 ++ (x ++ 0x55#8)) s.pc)

/-- LD Vx,[I] (R186): `V[k]` is the byte at `I + k` for `k` up to `X`; the registers above are unchanged. -/
def Obligations.LoadReadsTheRegisters : Prop :=
  ∀ (x : Reg) (s : State),
    decodeWord (0xF#4 ++ (x ++ 0x65#8)) = some (.ldVxMem x) ∧
    ∃ t, exec (.ldVxMem x) s = .next t ∧ PcBy 2 s t ∧ OnlyRegs s t ∧
      ∀ r : Reg, t.reg r =
        if r.toNat ≤ x.toNat then s.mem.read ((s.i.toNat + r.toNat) % 0x1000) else s.reg r

/-- Dumping `V0..Vx` and loading them again from the same region gives the values dumped, whatever the registers held
in between (42_index_memory.md R186, the round trip it quotes). -/
def Obligations.DumpThenLoadGivesTheRegistersBack : Prop :=
  ∀ (x : Reg) (s t u w : State), s.mem.wf = true → exec (.ldMemVx x) s = .next t →
    SameMemory t u → SameIndex t u → exec (.ldVxMem x) u = .next w →
    ∀ r : Reg, r.toNat ≤ x.toNat → w.reg r = s.reg r

/-- A store over the instruction stream is what the next fetch reads: after LD [I],Vx with `X >= 1`, the word at `I` is
`V0 :: V1` (20_memory.md R69, R74). -/
def Obligations.StoredBytesAreFetchedAsTheNextWord : Prop :=
  ∀ (x : Reg) (s t : State), s.mem.wf = true → 1 ≤ x.toNat → exec (.ldMemVx x) s = .next t →
    wordAtPc { t with pc := BitVec.ofNat 16 (s.i.toNat % 0x1000) } = s.reg 0x0#4 ++ s.reg 0x1#4

/-! ## Display (43_display.md) -/

/-- CLS (R200). -/
def Obligations.ClsTurnsEveryPixelOff : Prop :=
  decodeWord 0x00E0#16 = some .cls ∧
  ∀ s : State, ∃ t, exec .cls s = .next t ∧ PcBy 2 s t ∧ OnlyScreen s t ∧ ∀ x y, t.pixel x y = false

/-- `DrawSprite` (R201), for every sprite of at most 15 rows: a pixel changes exactly when a 1-bit of the sprite falls on
it, each coordinate reduced on its own; the collision is that such a pixel was on. -/
def Obligations.DrawSpriteXorsTheCoveredPixels : Prop :=
  ∀ (x0 y0 : Byte) (rows : List Byte) (fb : Framebuffer), rows.length ≤ 15 →
    (∀ px py,
      (Covers x0 y0 rows px py →
        Framebuffer.pixel (drawSprite x0 y0 rows fb).1 px py = !(Framebuffer.pixel fb px py)) ∧
      (¬ Covers x0 y0 rows px py →
        Framebuffer.pixel (drawSprite x0 y0 rows fb).1 px py = Framebuffer.pixel fb px py)) ∧
    ((drawSprite x0 y0 rows fb).2 = true ↔
      ∃ px py, Covers x0 y0 rows px py ∧ Framebuffer.pixel fb px py = true)

/-- The XOR law (R203): drawn twice, a sprite leaves the framebuffer as it was, and the second draw collides exactly
when a covered pixel was off before the first. -/
def Obligations.DrawingTwiceRestoresTheScreen : Prop :=
  ∀ (x0 y0 : Byte) (rows : List Byte) (fb : Framebuffer), rows.length ≤ 15 →
    (drawSprite x0 y0 rows (drawSprite x0 y0 rows fb).1).1 = fb ∧
    ((drawSprite x0 y0 rows (drawSprite x0 y0 rows fb).1).2 = true ↔
      ∃ px py, Covers x0 y0 rows px py ∧ Framebuffer.pixel fb px py = false)

/-- DRW Vx,Vy,N (R202): the `N` bytes at `I` drawn at `(V[X], V[Y])`; `VF` is 1 when a pixel went from on to off, else
0, and no other register changes. `N = 0` and `X` or `Y` equal to 15 are covered. -/
def Obligations.DrawReportsTheCollision : Prop :=
  ∀ (x y : Reg) (n : Nibble) (s : State),
    decodeWord (0xD#4 ++ (x ++ (y ++ n))) = some (.drw x y n) ∧
    ∃ t, exec (.drw x y n) s = .next t ∧ PcBy 2 s t ∧
      SameIndex s t ∧ SameStack s t ∧ SameTimers s t ∧ SameMemory s t ∧ SameKeys s t ∧ SameDraws s t ∧
      (∀ px py,
        (Covers (s.reg x) (s.reg y) (bytesAtI s n.toNat) px py → t.pixel px py = !(s.pixel px py)) ∧
        (¬ Covers (s.reg x) (s.reg y) (bytesAtI s n.toNat) px py → t.pixel px py = s.pixel px py)) ∧
      (∀ r, r ≠ 0xF#4 → t.reg r = s.reg r) ∧
      ((∃ px py, s.pixel px py = true ∧ t.pixel px py = false) → t.reg 0xF#4 = 0x01#8) ∧
      ((∀ px py, ¬ (s.pixel px py = true ∧ t.pixel px py = false)) → t.reg 0xF#4 = 0x00#8)

/-! ## Keys and timers (44_input_timers.md, 60_exceptions.md) -/

/-- SKP and SKNP (R220, R221, R227): the key of the low nibble, its level now. -/
def Obligations.SkipsOnAKey : Prop :=
  ∀ (x : Reg) (s : State),
    decodeWord (0xE#4 ++ (x ++ 0x9E#8)) = some (.skp x) ∧ decodeWord (0xE#4 ++ (x ++ 0xA1#8)) = some (.sknp x) ∧
    ∀ k : Nibble, k.toNat = (s.reg x).toNat % 16 →
      (∃ t, exec (.skp x) s = .next t ∧ PcBy (if s.key k = true then 4 else 2) s t ∧ OnlyPc s t) ∧
      ∃ t, exec (.sknp x) s = .next t ∧ PcBy (if s.key k = false then 4 else 2) s t ∧ OnlyPc s t

/-- LD Vx,K (R222): with no key down the state, `PC` included, stays as it is and the step's result
is `pending`; else the lowest key down is stored and the result is `ok`. -/
def Obligations.KeyWaitHoldsUntilAKeyIsDown : Prop :=
  ∀ (x : Reg) (s : State),
    decodeWord (0xF#4 ++ (x ++ 0x0A#8)) = some (.ldVxK x) ∧
    ((∀ k, s.key k = false) → exec (.ldVxK x) s = .next s ∧
      ∀ sys : System, sys.machine = some s → decodeWord (wordAtPc s) = some (.ldVxK x) →
        sys.event .step = (.pending, sys)) ∧
    (∀ k : Nibble, s.key k = true → (∀ j : Nibble, j.toNat < k.toNat → s.key j = false) →
      ∃ t, exec (.ldVxK x) s = .next t ∧ PcBy 2 s t ∧ OnlyRegs s t ∧
        (∀ r, (t.reg r).toNat = if r = x then k.toNat else (s.reg r).toNat) ∧
        ∀ sys : System, sys.machine = some s → decodeWord (wordAtPc s) = some (.ldVxK x) →
          sys.event .step = (.ok, { sys with machine := some t }))

/-- The Awaiting-keypress sub-state (R223): a step in it answers the same state, it is kept by ticks and by releasing
any key, and pressing a key ends it: the next step stores that key. -/
def Obligations.OnlyAKeyPressEndsTheWait : Prop :=
  ∀ s : State,
    (s.pending = true ↔ (∃ x, decodeWord (wordAtPc s) = some (.ldVxK x)) ∧ ∀ k, s.key k = false) ∧
    (s.pending = true →
      step s = .next s ∧ s.tick.pending = true ∧
      ∀ k, (s.setPressed k false).pending = true ∧ (s.setPressed k true).pending = false ∧
        ∃ x t, decodeWord (wordAtPc s) = some (.ldVxK x) ∧ step (s.setPressed k true) = .next t ∧
          PcBy 2 s t ∧ (t.reg x).toNat = k.toNat)

/-- LD Vx,DT, LD DT,Vx and LD ST,Vx (R224 to R226). -/
def Obligations.TimerMovesCopyOneByte : Prop :=
  ∀ (x : Reg) (s : State),
    decodeWord (0xF#4 ++ (x ++ 0x07#8)) = some (.ldVxDt x) ∧ decodeWord (0xF#4 ++ (x ++ 0x15#8)) = some (.ldDtVx x) ∧
    decodeWord (0xF#4 ++ (x ++ 0x18#8)) = some (.ldStVx x) ∧
    (∃ t, exec (.ldVxDt x) s = .next t ∧ PcBy 2 s t ∧ OnlyRegs s t ∧
      ∀ r, t.reg r = if r = x then s.dt else s.reg r) ∧
    (∃ t, exec (.ldDtVx x) s = .next t ∧ PcBy 2 s t ∧ OnlyTimers s t ∧ t.dt = s.reg x ∧ t.st = s.st) ∧
    ∃ t, exec (.ldStVx x) s = .next t ∧ PcBy 2 s t ∧ OnlyTimers s t ∧ t.st = s.reg x ∧ t.dt = s.dt ∧
      (t.tone = true ↔ s.reg x ≠ 0x00#8)

/-- `Tick` (60_exceptions.md R250), which no fault report stops, and the output `tone` (R252). -/
def Obligations.TickCountsBothTimersTowardZero : Prop :=
  ∀ s : State,
    s.tick.dt.toNat = s.dt.toNat - 1 ∧ s.tick.st.toNat = s.st.toNat - 1 ∧ OnlyTimers s s.tick ∧ s.tick.pc = s.pc ∧
    (s.tone = true ↔ s.st ≠ 0x00#8) ∧
    ∀ sys : System, sys.machine = some s → sys.event .tick = (.ok, { sys with machine := some s.tick })

/-- `SetPressed(k, b)` (60_exceptions.md R253): one key changes, and nothing else; the event cannot fail. -/
def Obligations.SetPressedWritesOneKey : Prop :=
  ∀ (s : State) (k : Nibble) (b : Bool),
    (∀ q, (s.setPressed k b).key q = if q = k then b else s.key q) ∧ (s.setPressed k b).pc = s.pc ∧
    SameRegs s (s.setPressed k b) ∧ SameIndex s (s.setPressed k b) ∧ SameStack s (s.setPressed k b) ∧
    SameTimers s (s.setPressed k b) ∧ SameMemory s (s.setPressed k b) ∧ SameScreen s (s.setPressed k b) ∧
    SameDraws s (s.setPressed k b) ∧
    ∀ sys : System, sys.machine = some s →
      sys.event (.setPressed k b) = (.ok, { sys with machine := some (s.setPressed k b) })

/-- The other agents do not interfere with an instruction that does not use what they write: a tick, or a key event,
before it or after it gives the same state (60_exceptions.md R255, 20_memory.md R75). -/
def Obligations.OtherAgentsCommuteWithUnrelatedInstructions : Prop :=
  ∀ (i : Instr) (s t : State), exec i s = .next t →
    (¬ UsesTimer i → exec i s.tick = .next t.tick) ∧
    (¬ ReadsKeys i → ∀ k b, exec i (s.setPressed k b) = .next (t.setPressed k b))

/-! ## Reset (10_state.md R37, 70_reset_and_hazards.md R280) -/

/-- `Reset(rom)` with an image of at most 3584 bytes leaves the values of R37, and at every block, whatever state and
report it holds, the event replies `ok`, leaves that state and clears the report (R281: no fault is pending; R282: nothing
survives); with a longer image it fails with `LoadTooLarge`. (The number of draws of `rnd`, the model's own, is kept; log entry 5.) -/
def Obligations.ResetLeavesTheTabulatedState : Prop :=
  ∀ (draws : Nat) (rom : List Byte),
    (rom.length ≤ 3584 → ∃ s, State.resetWith draws rom = .next s ∧
      (∀ r, s.reg r = 0x00#8) ∧ s.i = 0x0000#16 ∧ s.pc = 0x0200#16 ∧ s.sp = 0x00#8 ∧
      (∀ j : Fin 16, s.stack[j] = 0x0000#16) ∧ s.dt = 0x00#8 ∧ s.st = 0x00#8 ∧ s.tone = false ∧
      (∀ a, ∀ h : a < font.length, s.mem.read a = font[a]) ∧ font.length = 0x50 ∧
      (∀ a, 0x50 ≤ a → a < 0x200 → s.mem.read a = 0x00#8) ∧
      (∀ k, ∀ h : k < rom.length, s.mem.read (0x200 + k) = rom[k]) ∧
      (∀ a, 0x200 + rom.length ≤ a → a < 0x1000 → s.mem.read a = 0x00#8) ∧
      (∀ x y, s.pixel x y = false) ∧ (∀ k, s.key k = false) ∧
      ∀ sys : System, sys.drawn = draws →
        (sys.event (.reset rom)).1 = .ok ∧ (sys.event (.reset rom)).2.machine = some s ∧
          (sys.event (.reset rom)).2.report = none) ∧
    (3584 < rom.length → State.resetWith draws rom = .fault .loadTooLarge)

/-- THE MODEL'S CHOICE, log entry 7: the state the machine starts from is `Reset` with the empty image, with the draw
counter, the model's own (log entry 5), at its start value. The spec says only that an empty image is legal (20_memory.md
R66) and what such a Reset leaves (R280). -/
def Obligations.ResetStateIsResetOfTheEmptyImage : Prop :=
  State.resetWith State.reset.rndCount [] = .next State.reset

/-- A Reset that does not fit fails with `LoadTooLarge`; after it no state is defined and the block cannot be stepped,
until a Reset that fits gives it a state, which no other event does
(60_exceptions.md R256; of ticks and key events inferred, log entry 13). -/
def Obligations.FailedResetLeavesNoState : Prop :=
  ∀ (sys : System) (rom : List Byte), 3584 < rom.length →
    (sys.event (.reset rom)).1 = .fault .loadTooLarge ∧ (sys.event (.reset rom)).2.machine = none ∧
    ((sys.event (.reset rom)).2.event .step).1 = .noState ∧
    (∀ e, (∀ r, e = .reset r → 3584 < r.length) → ((sys.event (.reset rom)).2.event e).2.machine = none) ∧
    ∀ r, r.length ≤ 3584 →
      ((sys.event (.reset rom)).2.event (.reset r)).1 = .ok ∧
        ((sys.event (.reset rom)).2.event (.reset r)).2.machine.isSome = true

/-! ## Invariants (10_state.md R38) -/

/-- The reset state meets the invariants. -/
def Obligations.ResetMeetsTheInvariants : Prop := State.reset.Inv

/-- Every step keeps the invariants: `PC` even and at most `0xFFE`, at most 16 stack entries, all live ones even and at
most `0xFFE`, the bytes below `0x200` as at reset, the memory in canonical form. -/
def Obligations.EveryStepKeepsTheInvariants : Prop :=
  ∀ s t : State, s.Inv → step s = .next t → t.Inv

/-- Every event of the three agents keeps the invariants: a step, a tick, a key event, and a Reset with any image that
fits. -/
def Obligations.EveryEventKeepsTheInvariants : Prop :=
  ∀ (s : State) (e : Event) (t : State), s.Inv → s.event e = .next t → t.Inv

/-- The invariants of R38 hold in every state of the block after any events of its three agents in any order, from
before the first Reset, faulting steps and failed Resets among them. -/
def Obligations.InvariantsHoldAfterAnyEvents : Prop :=
  ∀ (events : List Event) (s : State), (System.initial.run events).machine = some s → s.Inv

/-- Two memories in canonical form that read alike are the same data. -/
def Obligations.CanonicalMemoryIsDeterminedByItsReads : Prop :=
  ∀ m n : Memory, m.wf = true → n.wf = true → (∀ a, m.read a = n.read a) → m = n

/-! ## Faults (60_exceptions.md) -/

/-- A step at a state that meets the invariants is never refused: it runs or reports a fault. -/
def Obligations.NoStepIsRefused : Prop :=
  ∀ s : State, s.Inv → (∃ t, step s = .next t) ∨ ∃ f, step s = .fault f

/-- Every fault of a step has its cause and reports it (R240, R242 to R247, R257): which kind, the word fetched, the
address it was fetched from, and the kind's extra information. `OutOfBounds` and `LoadTooLarge` are not among them. -/
def Obligations.EveryFaultHasItsCause : Prop :=
  ∀ (s : State) (f : Fault), step s = .fault f →
    (f = .unknownOpcode (wordAtPc s) s.pc ∧
      (decodeWord (wordAtPc s) = none ∨ ∃ nnn, decodeWord (wordAtPc s) = some (.sys nnn))) ∨
    (∃ target, f = .misalignedPC target (wordAtPc s) s.pc ∧ target.toNat % 2 = 1 ∧ target.toNat < 0x1000 ∧
      ∃ nnn, decodeWord (wordAtPc s) = some (.jp nnn) ∨ decodeWord (wordAtPc s) = some (.call nnn) ∨
        decodeWord (wordAtPc s) = some (.jpV0 nnn)) ∨
    (f = .stackOverflow (wordAtPc s) s.pc ∧ s.sp.toNat = 16 ∧ ∃ nnn, decodeWord (wordAtPc s) = some (.call nnn)) ∨
    (f = .stackUnderflow (wordAtPc s) s.pc ∧ s.sp.toNat = 0 ∧ decodeWord (wordAtPc s) = some .ret) ∨
    ∃ a, f = .protectedWrite a (wordAtPc s) s.pc ∧ a.toNat < 0x200 ∧
      ∃ x, decodeWord (wordAtPc s) = some (.ldB x) ∨ decodeWord (wordAtPc s) = some (.ldMemVx x)

/-- A fault changes nothing and stays: after it, whatever the Timer Clock and the keypad do, the state's registers,
memory, screen and stack are as before the faulting step, the report is kept, and a further step raises the same fault
(R241, R258). -/
def Obligations.FaultChangesNothingAndRecurs : Prop :=
  ∀ (sys : System) (s : State) (f : Fault), sys.machine = some s → step s = .fault f →
    sys.event .step = (.fault f, { sys with report := some f }) ∧
    ∀ events : List Event, (∀ e ∈ events, Outside e) →
      ∃ t, ((sys.event .step).2.run events).machine = some t ∧ ((sys.event .step).2.run events).report = some f ∧
        t.pc = s.pc ∧ SameRegs s t ∧ SameIndex s t ∧ SameStack s t ∧ SameMemory s t ∧ SameScreen s t ∧ SameDraws s t ∧
        (((sys.event .step).2.run events).event .step).1 = .fault f

/-- Under `ADDR_POLICY = check` an address beyond `0xFFF` is the fault `OutOfBounds`: a step with `PC > 0xFFE`, the
accesses of DRW and LD Vx,[I] at `I + k`, and JP V0's sum; in the stores, where no address before it is below `0x200`.
`PC` and skips do not wrap at `0x1000`: a taken skip adds 4, the address CALL pushes is `PC + 2`, and every other
instruction that assigns no target adds 2 and, with its accesses inside the address space, completes (R245). THE MODEL'S
CHOICE, log entry 12: of `OutOfBounds` and `MisalignedPC` an odd JP V0 sum raises the first, a step whose fetch fails
reports no word, and the sums of `PC` are those of its 16 bits. -/
def Obligations.CheckPolicyFaultsBeyondTheAddressSpace : Prop :=
  ∀ (c : Config) (s : State), c = { Config.hardware with addrPolicy := .check } →
    (s.pc.toNat > 0xFFE → ∃ a, a > 0xFFF ∧ stepUnder c s = .fault (.outOfBounds a none s.pc)) ∧
    (∀ nn x, ∃ t, execUnder c (.ldImm x nn) s = .next t ∧ t.pc = s.pc + 2#16) ∧
    (∀ x nn, ∃ t, execUnder c (.seImm x nn) s = .next t ∧ OnlyPc s t ∧
      t.pc = if s.reg x = nn then s.pc + 4#16 else s.pc + 2#16) ∧
    (∀ x nn, ∃ t, execUnder c (.sneImm x nn) s = .next t ∧ OnlyPc s t ∧
      t.pc = if s.reg x ≠ nn then s.pc + 4#16 else s.pc + 2#16) ∧
    (∀ x y, ∃ t, execUnder c (.seReg x y) s = .next t ∧ OnlyPc s t ∧
      t.pc = if s.reg x = s.reg y then s.pc + 4#16 else s.pc + 2#16) ∧
    (∀ x y, ∃ t, execUnder c (.sneReg x y) s = .next t ∧ OnlyPc s t ∧
      t.pc = if s.reg x ≠ s.reg y then s.pc + 4#16 else s.pc + 2#16) ∧
    (∀ (x : Reg) (k : Nibble), k.toNat = (s.reg x).toNat % 16 →
      (∃ t, execUnder c (.skp x) s = .next t ∧ OnlyPc s t ∧
        t.pc = if s.key k = true then s.pc + 4#16 else s.pc + 2#16) ∧
      ∃ t, execUnder c (.sknp x) s = .next t ∧ OnlyPc s t ∧
        t.pc = if s.key k = false then s.pc + 4#16 else s.pc + 2#16) ∧
    (∀ (nnn : Addr) (k : Fin 16), nnn.toNat % 2 = 0 → s.sp.toNat = k.val →
      ∃ t, execUnder c (.call nnn) s = .next t ∧ t.stack[k] = s.pc + 2#16) ∧
    (∀ i t, ¬ Transfers i → ¬ Skips i → execUnder c i s = .next t →
      t.pc = s.pc + 2#16 ∨ ((∃ x, i = .ldVxK x) ∧ (∀ k, s.key k = false) ∧ t = s)) ∧
    (∀ i, ¬ Transfers i → (∀ nnn, i ≠ .sys nnn) → 0x200 ≤ s.i.toNat → s.i.toNat + 16 ≤ 0x1000 →
      ∃ t, execUnder c i s = .next t) ∧
    (∀ x y n, s.i.toNat + n.toNat > 0x1000 → 0 < n.toNat →
      ∃ a, a > 0xFFF ∧ execUnder c (.drw x y n) s = .fault (.outOfBounds a (some (encodeWord (.drw x y n))) s.pc)) ∧
    (∀ x, s.i.toNat + x.toNat > 0xFFF →
      ∃ a, a > 0xFFF ∧ execUnder c (.ldVxMem x) s = .fault (.outOfBounds a (some (encodeWord (.ldVxMem x))) s.pc)) ∧
    (∀ x, s.i.toNat + 2 > 0xFFF →
      ∃ a, a > 0xFFF ∧ execUnder c (.ldB x) s = .fault (.outOfBounds a (some (encodeWord (.ldB x))) s.pc)) ∧
    (∀ x, s.i.toNat + x.toNat > 0xFFF →
      ∃ a, a > 0xFFF ∧ execUnder c (.ldMemVx x) s = .fault (.outOfBounds a (some (encodeWord (.ldMemVx x))) s.pc)) ∧
    ∀ nnn, nnn.toNat + (s.reg 0x0#4).toNat > 0xFFF →
      execUnder c (.jpV0 nnn) s =
        .fault (.outOfBounds (nnn.toNat + (s.reg 0x0#4).toNat) (some (encodeWord (.jpV0 nnn))) s.pc)

/-! ## Whole-machine rules -/

/-- `PC` after an instruction: two on, four on for a skip that is taken, the target for a transfer, or, with no key
down, the key wait's own address (30_encoding.md R90; 40_flow.md R124, R129). -/
def Obligations.PcAdvancesByTwoOrFour : Prop :=
  ∀ (i : Instr) (s t : State), exec i s = .next t → ¬ Transfers i →
    PcBy 2 s t ∨ (Skips i ∧ PcBy 4 s t) ∨ ((∃ x, i = .ldVxK x) ∧ (∀ k, s.key k = false) ∧ t = s)

/-- Memory changes only by LD B and LD [I], and never below `0x200` or beyond `0xFFF` (20_memory.md R65, 10_state.md
R39). -/
def Obligations.OnlyStoresChangeMemory : Prop :=
  ∀ (i : Instr) (s t : State) (a : Nat), exec i s = .next t → t.mem.read a ≠ s.mem.read a →
    Stores i ∧ 0x200 ≤ a ∧ a < 0x1000

/-- `VF` changes only by an instruction that writes it as a flag or that names it as a destination, LD Vx,[I] with
`X = 15` among them; written as a flag it is 0 or 1 (10_state.md R22). -/
def Obligations.FlagChangesOnlyByItsWriters : Prop :=
  ∀ (i : Instr) (s t : State), exec i s = .next t →
    (t.reg 0xF#4 ≠ s.reg 0xF#4 → WritesFlag i ∨ destination i = some 0xF#4 ∨ i = .ldVxMem 0xF#4) ∧
    (WritesFlag i → t.reg 0xF#4 = 0x00#8 ∨ t.reg 0xF#4 = 0x01#8)

/-- The other elements change only by their writers (10_state.md R23, R25, R29, R30, R32, R33, R39): `I` by LD I, ADD I
and LD F; the stack by CALL and RET; DT by LD DT; ST by LD ST; pixels by CLS and DRW; keys by no instruction. -/
def Obligations.EveryElementChangesOnlyByItsWriters : Prop :=
  ∀ (i : Instr) (s t : State), exec i s = .next t →
    (¬ SameIndex s t → (∃ nnn, i = .ldI nnn) ∨ (∃ x, i = .addI x) ∨ ∃ x, i = .ldF x) ∧
    (¬ SameStack s t → (∃ nnn, i = .call nnn) ∨ i = .ret) ∧
    (t.dt ≠ s.dt → ∃ x, i = .ldDtVx x) ∧
    (t.st ≠ s.st → ∃ x, i = .ldStVx x) ∧
    (¬ SameScreen s t → i = .cls ∨ ∃ x y n, i = .drw x y n) ∧
    SameKeys s t

/-- A RET at any later state with the stack a CALL left returns to the address after the CALL, and the stack pointer is
the one before it (40_flow.md R121, R123; the property quoted in 10_state.md R28). -/
def Obligations.RetReturnsToTheAddressAfterTheCall : Prop :=
  ∀ (nnn : Addr) (s t u : State), exec (.call nnn) s = .next t → SameStack t u →
    ∃ w, exec .ret u = .next w ∧ w.pc.toNat = (s.pc.toNat + 2) % 0x1000 ∧ w.sp = s.sp

/-- A jump to its own address leaves every element as it is: the spin that ends a program (70_reset_and_hazards.md
R288). -/
def Obligations.SpinLeavesTheStateUnchanged : Prop :=
  ∀ (nnn : Addr) (s : State), nnn.toNat % 2 = 0 → s.pc = nnn.setWidth 16 →
    decodeWord (wordAtPc s) = some (.jp nnn) → step s = .next s
end

