-- ==== Sys2Proof/Laws/Decode.lean ====
section
/-! SUPPORT. The fields of an encoded word, and a word and its two bytes (30_encoding.md R92, R93; 20_memory.md R69). -/

namespace Sys2Proof

/-! ## Words as numbers -/

/-- Concatenation is a sum: the low part fills the bits the high part leaves. -/
theorem toNat_append_eq {m n : Nat} (a : BitVec m) (b : BitVec n) : (a ++ b).toNat = a.toNat * 2 ^ n + b.toNat := by
  rw [BitVec.toNat_append, ← Nat.shiftLeft_add_eq_or_of_lt b.isLt, Nat.shiftLeft_eq]

theorem toNat_encodeAddr (f : Nibble) (nnn : Addr) : (encodeAddr f nnn).toNat = f.toNat * 4096 + nnn.toNat :=
  toNat_append_eq f nnn

theorem toNat_encodeXNN (f : Nibble) (x : Reg) (nn : Byte) :
    (encodeXNN f x nn).toNat = f.toNat * 4096 + (x.toNat * 256 + nn.toNat) := by
  have h : (encodeXNN f x nn).toNat = f.toNat * 2 ^ 12 + (x ++ nn).toNat := toNat_append_eq f (x ++ nn)
  rw [h, toNat_append_eq]; omega

theorem toNat_encodeXYN (f : Nibble) (x y : Reg) (n : Nibble) :
    (encodeXYN f x y n).toNat = f.toNat * 4096 + (x.toNat * 256 + (y.toNat * 16 + n.toNat)) := by
  have h : (encodeXYN f x y n).toNat = f.toNat * 2 ^ 12 + (x ++ (y ++ n)).toNat := toNat_append_eq f (x ++ (y ++ n))
  rw [h, toNat_append_eq, toNat_append_eq]; omega

theorem toNat_wordOfBytes (hi lo : Byte) : (wordOfBytes hi lo).toNat = hi.toNat * 256 + lo.toNat :=
  toNat_append_eq hi lo

theorem Field.toNat_n3 (op : Word) : (Field.n3 op).toNat = op.toNat / 4096 := by
  have := op.isLt
  simp only [Field.n3, BitVec.extractLsb'_toNat, Nat.shiftRight_eq_div_pow]
  omega

theorem Field.toNat_x (op : Word) : (Field.x op).toNat = op.toNat / 256 % 16 := by
  simp only [Field.x, BitVec.extractLsb'_toNat, Nat.shiftRight_eq_div_pow]

theorem Field.toNat_y (op : Word) : (Field.y op).toNat = op.toNat / 16 % 16 := by
  simp only [Field.y, BitVec.extractLsb'_toNat, Nat.shiftRight_eq_div_pow]

theorem Field.toNat_n (op : Word) : (Field.n op).toNat = op.toNat % 16 := by
  simp [Field.n, BitVec.extractLsb'_toNat]

theorem Field.toNat_nn (op : Word) : (Field.nn op).toNat = op.toNat % 256 := by
  simp [Field.nn, BitVec.extractLsb'_toNat]

theorem Field.toNat_nnn (op : Word) : (Field.nnn op).toNat = op.toNat % 4096 := by
  simp [Field.nnn, BitVec.extractLsb'_toNat]

theorem toNat_highByte (op : Word) : (highByte op).toNat = op.toNat / 256 := by
  have := op.isLt
  simp only [highByte, BitVec.extractLsb'_toNat, Nat.shiftRight_eq_div_pow]
  omega

theorem toNat_lowByte (op : Word) : (lowByte op).toNat = op.toNat % 256 := by
  simp [lowByte, BitVec.extractLsb'_toNat]

/-! ## What the fields of each format are -/

@[simp] theorem Field.n3_encodeAddr (f : Nibble) (nnn : Addr) : Field.n3 (encodeAddr f nnn) = f := by
  apply BitVec.eq_of_toNat_eq
  rw [Field.toNat_n3, toNat_encodeAddr]; omega

@[simp] theorem Field.nnn_encodeAddr (f : Nibble) (nnn : Addr) : Field.nnn (encodeAddr f nnn) = nnn := by
  apply BitVec.eq_of_toNat_eq
  rw [Field.toNat_nnn, toNat_encodeAddr]; omega

@[simp] theorem Field.n3_encodeXNN (f : Nibble) (x : Reg) (nn : Byte) : Field.n3 (encodeXNN f x nn) = f := by
  apply BitVec.eq_of_toNat_eq
  rw [Field.toNat_n3, toNat_encodeXNN]; omega

@[simp] theorem Field.x_encodeXNN (f : Nibble) (x : Reg) (nn : Byte) : Field.x (encodeXNN f x nn) = x := by
  apply BitVec.eq_of_toNat_eq
  rw [Field.toNat_x, toNat_encodeXNN]; omega

@[simp] theorem Field.nn_encodeXNN (f : Nibble) (x : Reg) (nn : Byte) : Field.nn (encodeXNN f x nn) = nn := by
  apply BitVec.eq_of_toNat_eq
  rw [Field.toNat_nn, toNat_encodeXNN]; omega

@[simp] theorem Field.n3_encodeXYN (f : Nibble) (x y : Reg) (n : Nibble) : Field.n3 (encodeXYN f x y n) = f := by
  apply BitVec.eq_of_toNat_eq
  rw [Field.toNat_n3, toNat_encodeXYN]; omega

@[simp] theorem Field.x_encodeXYN (f : Nibble) (x y : Reg) (n : Nibble) : Field.x (encodeXYN f x y n) = x := by
  apply BitVec.eq_of_toNat_eq
  rw [Field.toNat_x, toNat_encodeXYN]; omega

@[simp] theorem Field.y_encodeXYN (f : Nibble) (x y : Reg) (n : Nibble) : Field.y (encodeXYN f x y n) = y := by
  apply BitVec.eq_of_toNat_eq
  rw [Field.toNat_y, toNat_encodeXYN]; omega

@[simp] theorem Field.n_encodeXYN (f : Nibble) (x y : Reg) (n : Nibble) : Field.n (encodeXYN f x y n) = n := by
  apply BitVec.eq_of_toNat_eq
  rw [Field.toNat_n, toNat_encodeXYN]; omega

/-! ## A word is its fields, and its bytes -/

theorem encodeAddr_fields (op : Word) : encodeAddr (Field.n3 op) (Field.nnn op) = op := by
  apply BitVec.eq_of_toNat_eq
  rw [toNat_encodeAddr, Field.toNat_n3, Field.toNat_nnn]; omega

theorem encodeXNN_fields (op : Word) : encodeXNN (Field.n3 op) (Field.x op) (Field.nn op) = op := by
  apply BitVec.eq_of_toNat_eq
  rw [toNat_encodeXNN, Field.toNat_n3, Field.toNat_x, Field.toNat_nn]; omega

theorem encodeXYN_fields (op : Word) : encodeXYN (Field.n3 op) (Field.x op) (Field.y op) (Field.n op) = op := by
  apply BitVec.eq_of_toNat_eq
  rw [toNat_encodeXYN, Field.toNat_n3, Field.toNat_x, Field.toNat_y, Field.toNat_n]; omega

@[simp] theorem wordOfBytes_bytes (op : Word) : wordOfBytes (highByte op) (lowByte op) = op := by
  apply BitVec.eq_of_toNat_eq
  rw [toNat_wordOfBytes, toNat_highByte, toNat_lowByte]; omega

@[simp] theorem highByte_wordOfBytes (hi lo : Byte) : highByte (wordOfBytes hi lo) = hi := by
  apply BitVec.eq_of_toNat_eq
  rw [toNat_highByte, toNat_wordOfBytes]; omega

@[simp] theorem lowByte_wordOfBytes (hi lo : Byte) : lowByte (wordOfBytes hi lo) = lo := by
  apply BitVec.eq_of_toNat_eq
  rw [toNat_lowByte, toNat_wordOfBytes]; omega

/-- The decoder of bytes is the decoder of words on the bytes of a word. -/
theorem decode_bytes (op : Word) (rest : List Byte) :
    decode (highByte op :: lowByte op :: rest) =
      match decodeWord op with
      | some i => .ok (i, rest)
      | none => .error (.unknown op) := by
  cases h : decodeWord op <;> simp [decode, h]

end Sys2Proof
end

