-- ==== Sys2Proof/Laws/Memory.lean ====
section
/-! SUPPORT. The memory: a read after a write, and that every operation keeps the canonical form. -/

namespace Sys2Proof.Machine

/-! ## The canonical form of a list of cells -/

theorem cellsWf_cons {lo a : Nat} {b : Byte} {rest : List Host.Cell} :
    cellsWf lo ((a, b) :: rest) = true ↔
      lo ≤ a ∧ a < memSize ∧ b ≠ Memory.unlisted a ∧ cellsWf (a + 1) rest = true := by
  simp [cellsWf, and_assoc]

theorem cellsWf_mono {lo lo' : Nat} (h : lo' ≤ lo) {l : List Host.Cell} (hl : cellsWf lo l = true) :
    cellsWf lo' l = true := by
  cases l with
  | nil => rfl
  | cons c rest =>
    obtain ⟨h1, h2⟩ := cellsWf_cons.mp hl
    exact cellsWf_cons.mpr ⟨by omega, h2⟩

/-- No cell of a canonical list stands below where the list begins. -/
theorem lookupCell_below {lo a : Nat} (h : a < lo) : ∀ {l : List Host.Cell}, cellsWf lo l = true → lookupCell a l = none
  | [], _ => rfl
  | (k, x) :: rest, hl => by
    obtain ⟨h1, -, -, h4⟩ := cellsWf_cons.mp hl
    have : k ≠ a := by omega
    simp [lookupCell, this, lookupCell_below (show a < k + 1 by omega) h4]

theorem cellFor_append_wf {lo a : Nat} {b : Byte} {rest : List Host.Cell} (h1 : lo ≤ a) (h2 : a < memSize)
    (h3 : cellsWf (a + 1) rest = true) : cellsWf lo (cellFor a b ++ rest) = true := by
  unfold cellFor
  split
  · exact cellsWf_mono (by omega) h3
  · rename_i h
    exact cellsWf_cons.mpr ⟨h1, h2, h, h3⟩

theorem insertCell_wf {a : Nat} {b : Byte} (h2 : a < memSize) :
    ∀ {lo : Nat} {l : List Host.Cell}, lo ≤ a → cellsWf lo l = true → cellsWf lo (insertCell a b l) = true
  | lo, [], h1, _ => by simpa [insertCell] using cellFor_append_wf (rest := []) (b := b) h1 h2 rfl
  | lo, (k, x) :: rest, h1, hl => by
    obtain ⟨g1, g2, g3, g4⟩ := cellsWf_cons.mp hl
    unfold insertCell
    split
    · exact cellFor_append_wf h1 h2 (cellsWf_cons.mpr ⟨by omega, g2, g3, g4⟩)
    · split
      · rename_i h
        subst h
        exact cellFor_append_wf h1 h2 g4
      · exact cellsWf_cons.mpr ⟨g1, g2, g3, insertCell_wf h2 (by omega) g4⟩

/-! ## Every operation keeps the canonical form -/

theorem Memory.wf_empty : Memory.wf ⟨[]⟩ = true := rfl

theorem Memory.wf_write {m : Memory} {a : Nat} {b : Byte} (h : a < memSize) (hm : m.wf = true) :
    (m.write a b).wf = true := insertCell_wf h (Nat.zero_le a) hm

theorem Memory.wf_writeAll : ∀ {l : List (Nat × Byte)} {m : Memory},
    (∀ p ∈ l, p.1 < memSize) → m.wf = true → (m.writeAll l).wf = true
  | [], _, _, hm => hm
  | (a, b) :: rest, m, h, hm => by
    have ha : a < memSize := h (a, b) List.mem_cons_self
    exact Memory.wf_writeAll (l := rest) (fun p hp => h p (List.mem_cons_of_mem _ hp)) (Memory.wf_write ha hm)

theorem Memory.wf_load {m m' : Memory} {bytes : List Byte} {at_ : Nat} (h : m.load bytes at_ = some m')
    (hm : m.wf = true) : m'.wf = true := by
  unfold Memory.load at h
  split at h
  · cases h
  · rename_i hfit
    cases h
    refine Memory.wf_writeAll (fun p hp => ?_) hm
    have := List.of_mem_zip hp
    have := List.mem_range'_1.mp this.1
    omega

/-! ## Reading -/

@[simp] theorem Memory.read_empty (a : Nat) : Memory.read ⟨[]⟩ a = Memory.unlisted a := rfl

theorem lookupCell_cellFor_append (a q : Nat) (b : Byte) (rest : List Host.Cell) :
    (lookupCell q (cellFor a b ++ rest)).getD (Memory.unlisted q) =
      if q = a then (if b = Memory.unlisted a then (lookupCell q rest).getD (Memory.unlisted q) else b)
      else (lookupCell q rest).getD (Memory.unlisted q) := by
  unfold cellFor
  by_cases hb : b = Memory.unlisted a
  · simp [hb]
  · by_cases hq : q = a
    · simp [hb, hq, lookupCell]
    · have : a ≠ q := fun e => hq e.symm
      simp [hb, hq, lookupCell, this]

theorem read_insertCell {a q : Nat} {b : Byte} :
    ∀ {lo : Nat} {l : List Host.Cell}, cellsWf lo l = true →
      (lookupCell q (insertCell a b l)).getD (Memory.unlisted q) =
        if q = a then b else (lookupCell q l).getD (Memory.unlisted q)
  | _, [], _ => by
    have := lookupCell_cellFor_append a q b []
    simp only [List.append_nil] at this
    rw [insertCell, this]
    by_cases hq : q = a
    · subst hq
      by_cases hb : b = Memory.unlisted q <;> simp [hb, lookupCell]
    · simp [hq]
  | lo, (k, x) :: rest, hl => by
    obtain ⟨g1, g2, g3, g4⟩ := cellsWf_cons.mp hl
    unfold insertCell
    split
    · rename_i hak
      rw [lookupCell_cellFor_append]
      by_cases hq : q = a
      · subst hq
        have hk : k ≠ q := by omega
        have : lookupCell q rest = none := lookupCell_below (show q < k + 1 by omega) g4
        by_cases hb : b = Memory.unlisted q <;> simp [hb, lookupCell, hk, this]
      · simp [hq]
    · split
      · rename_i hak
        subst hak
        rw [lookupCell_cellFor_append]
        by_cases hq : q = a
        · subst hq
          have : lookupCell q rest = none := lookupCell_below (show q < q + 1 by omega) g4
          by_cases hb : b = Memory.unlisted q <;> simp [hb, this]
        · have : a ≠ q := fun h => hq h.symm
          simp [hq, lookupCell, this]
      · rename_i h1 h2
        by_cases hk : k = q
        · have : q ≠ a := by omega
          simp [lookupCell, hk, this]
        · simp only [lookupCell, hk, if_false]
          exact read_insertCell g4

/-- A read after a write: the byte written at its address, what was there elsewhere. -/
theorem Memory.read_write {m : Memory} (hm : m.wf = true) (a q : Nat) (b : Byte) :
    (m.write a b).read q = if q = a then b else m.read q := read_insertCell hm

theorem lookupCell_append_of_ne {a q : Nat} (b : Byte) (h : q ≠ a) (rest : List Host.Cell) :
    lookupCell q (cellFor a b ++ rest) = lookupCell q rest := by
  unfold cellFor
  split
  · rfl
  · have : a ≠ q := fun e => h e.symm
    simp [lookupCell, this]

/-- A write leaves every other address alone, whatever the form of the memory. -/
theorem Memory.read_write_other (m : Memory) {a q : Nat} (b : Byte) (h : q ≠ a) : (m.write a b).read q = m.read q := by
  have key : ∀ l : List Host.Cell, lookupCell q (insertCell a b l) = lookupCell q l := by
    intro l
    induction l with
    | nil => simpa [insertCell] using lookupCell_append_of_ne b h []
    | cons c rest ih =>
      obtain ⟨k, x⟩ := c
      unfold insertCell
      split
      · exact lookupCell_append_of_ne b h _
      · split
        · rename_i hk
          have : k ≠ q := by omega
          simp [lookupCell_append_of_ne b h, lookupCell, this]
        · simp [lookupCell, ih]
  simp [Memory.read, Memory.write, key]

/-- Writes leave an address none of them names alone. -/
theorem Memory.read_writeAll_other {q : Nat} : ∀ (l : List (Nat × Byte)) (m : Memory),
    (∀ p ∈ l, p.1 ≠ q) → (m.writeAll l).read q = m.read q
  | [], _, _ => rfl
  | (a, b) :: rest, m, h => by
    have ha : q ≠ a := fun e => h (a, b) (List.mem_cons_self ..) e.symm
    rw [Memory.writeAll, Memory.read_writeAll_other rest _ (fun p hp => h p (List.mem_cons_of_mem _ hp)),
      Memory.read_write_other m b ha]

/-- Writes at addresses that are all different: the address named with a byte reads as that byte. -/
theorem Memory.read_writeAll_mem {q : Nat} {b : Byte} : ∀ {l : List (Nat × Byte)} {m : Memory},
    m.wf = true → (∀ p ∈ l, p.1 < memSize) → (l.map Prod.fst).Nodup → (q, b) ∈ l → (m.writeAll l).read q = b
  | (a, c) :: rest, m, hm, hl, hn, hmem => by
    have hlt : a < memSize := hl (a, c) (List.mem_cons_self ..)
    have hl' : ∀ p ∈ rest, p.1 < memSize := fun p hp => hl p (List.mem_cons_of_mem _ hp)
    simp only [List.map_cons, List.nodup_cons] at hn
    rw [Memory.writeAll]
    rcases List.mem_cons.mp hmem with h | h
    · cases h
      rw [Memory.read_writeAll_other rest _ (fun p hp e => hn.1 (List.mem_map.mpr ⟨p, hp, e⟩)), Memory.read_write hm]
      simp
    · exact Memory.read_writeAll_mem (Memory.wf_write hlt hm) hl' hn.2 h

end Sys2Proof.Machine
end

