-- ==== Sys2Proof/Laws/State.lean ====
section
/-! SUPPORT. One lemma per field per update of the state, so that no later proof unfolds a record update, and the
registers, pixels and keys read back. -/

namespace Sys2Proof.Machine

/-! ## The configuration of this hardware -/

@[simp] theorem hardware_addrPolicy : Config.hardware.addrPolicy = .mask := rfl

@[simp] theorem hardware_shiftSrc : Config.hardware.shiftSrc = .vy := rfl

@[simp] theorem hardware_jumpOffsetReg : Config.hardware.jumpOffsetReg = .v0 := rfl

@[simp] theorem hardware_sysPolicy : Config.hardware.sysPolicy = .fault := rfl

/-! ## advance -/

@[simp] theorem State.advance_v (s : State) (c : Config) : (s.advance c).v = s.v := rfl

@[simp] theorem State.advance_i (s : State) (c : Config) : (s.advance c).i = s.i := rfl

@[simp] theorem State.advance_pc (s : State) (c : Config) : (s.advance c).pc = nextPc c.addrPolicy s.pc := rfl

@[simp] theorem State.advance_sp (s : State) (c : Config) : (s.advance c).sp = s.sp := rfl

@[simp] theorem State.advance_stack (s : State) (c : Config) : (s.advance c).stack = s.stack := rfl

@[simp] theorem State.advance_dt (s : State) (c : Config) : (s.advance c).dt = s.dt := rfl

@[simp] theorem State.advance_st (s : State) (c : Config) : (s.advance c).st = s.st := rfl

@[simp] theorem State.advance_mem (s : State) (c : Config) : (s.advance c).mem = s.mem := rfl

@[simp] theorem State.advance_fb (s : State) (c : Config) : (s.advance c).fb = s.fb := rfl

@[simp] theorem State.advance_keys (s : State) (c : Config) : (s.advance c).keys = s.keys := rfl

@[simp] theorem State.advance_rndCount (s : State) (c : Config) : (s.advance c).rndCount = s.rndCount := rfl

/-! ## setReg -/

@[simp] theorem State.setReg_v (s : State) (r : Reg) (b : Byte) : (s.setReg r b).v = s.v.set r.toNat b r.isLt := rfl

@[simp] theorem State.setReg_i (s : State) (r : Reg) (b : Byte) : (s.setReg r b).i = s.i := rfl

@[simp] theorem State.setReg_pc (s : State) (r : Reg) (b : Byte) : (s.setReg r b).pc = s.pc := rfl

@[simp] theorem State.setReg_sp (s : State) (r : Reg) (b : Byte) : (s.setReg r b).sp = s.sp := rfl

@[simp] theorem State.setReg_stack (s : State) (r : Reg) (b : Byte) : (s.setReg r b).stack = s.stack := rfl

@[simp] theorem State.setReg_dt (s : State) (r : Reg) (b : Byte) : (s.setReg r b).dt = s.dt := rfl

@[simp] theorem State.setReg_st (s : State) (r : Reg) (b : Byte) : (s.setReg r b).st = s.st := rfl

@[simp] theorem State.setReg_mem (s : State) (r : Reg) (b : Byte) : (s.setReg r b).mem = s.mem := rfl

@[simp] theorem State.setReg_fb (s : State) (r : Reg) (b : Byte) : (s.setReg r b).fb = s.fb := rfl

@[simp] theorem State.setReg_keys (s : State) (r : Reg) (b : Byte) : (s.setReg r b).keys = s.keys := rfl

@[simp] theorem State.setReg_rndCount (s : State) (r : Reg) (b : Byte) : (s.setReg r b).rndCount = s.rndCount := rfl

/-! ## setRegThenFlag -/

@[simp] theorem State.setRegThenFlag_v (s : State) (x : Reg) (b : Byte) (f : Bool) : (s.setRegThenFlag x b f).v = ((s.setReg x b).setReg vf (flagByte f)).v := rfl

@[simp] theorem State.setRegThenFlag_i (s : State) (x : Reg) (b : Byte) (f : Bool) : (s.setRegThenFlag x b f).i = s.i := rfl

@[simp] theorem State.setRegThenFlag_pc (s : State) (x : Reg) (b : Byte) (f : Bool) : (s.setRegThenFlag x b f).pc = s.pc := rfl

@[simp] theorem State.setRegThenFlag_sp (s : State) (x : Reg) (b : Byte) (f : Bool) : (s.setRegThenFlag x b f).sp = s.sp := rfl

@[simp] theorem State.setRegThenFlag_stack (s : State) (x : Reg) (b : Byte) (f : Bool) : (s.setRegThenFlag x b f).stack = s.stack := rfl

@[simp] theorem State.setRegThenFlag_dt (s : State) (x : Reg) (b : Byte) (f : Bool) : (s.setRegThenFlag x b f).dt = s.dt := rfl

@[simp] theorem State.setRegThenFlag_st (s : State) (x : Reg) (b : Byte) (f : Bool) : (s.setRegThenFlag x b f).st = s.st := rfl

@[simp] theorem State.setRegThenFlag_mem (s : State) (x : Reg) (b : Byte) (f : Bool) : (s.setRegThenFlag x b f).mem = s.mem := rfl

@[simp] theorem State.setRegThenFlag_fb (s : State) (x : Reg) (b : Byte) (f : Bool) : (s.setRegThenFlag x b f).fb = s.fb := rfl

@[simp] theorem State.setRegThenFlag_keys (s : State) (x : Reg) (b : Byte) (f : Bool) : (s.setRegThenFlag x b f).keys = s.keys := rfl

@[simp] theorem State.setRegThenFlag_rndCount (s : State) (x : Reg) (b : Byte) (f : Bool) : (s.setRegThenFlag x b f).rndCount = s.rndCount := rfl

/-! ## skipIf -/

@[simp] theorem State.skipIf_v (s : State) (cond : Bool) (c : Config) : (s.skipIf cond c).v = s.v := by cases cond <;> rfl

@[simp] theorem State.skipIf_i (s : State) (cond : Bool) (c : Config) : (s.skipIf cond c).i = s.i := by cases cond <;> rfl

@[simp] theorem State.skipIf_pc (s : State) (cond : Bool) (c : Config) : (s.skipIf cond c).pc = if cond then nextPc c.addrPolicy (nextPc c.addrPolicy s.pc) else nextPc c.addrPolicy s.pc := by cases cond <;> rfl

@[simp] theorem State.skipIf_sp (s : State) (cond : Bool) (c : Config) : (s.skipIf cond c).sp = s.sp := by cases cond <;> rfl

@[simp] theorem State.skipIf_stack (s : State) (cond : Bool) (c : Config) : (s.skipIf cond c).stack = s.stack := by cases cond <;> rfl

@[simp] theorem State.skipIf_dt (s : State) (cond : Bool) (c : Config) : (s.skipIf cond c).dt = s.dt := by cases cond <;> rfl

@[simp] theorem State.skipIf_st (s : State) (cond : Bool) (c : Config) : (s.skipIf cond c).st = s.st := by cases cond <;> rfl

@[simp] theorem State.skipIf_mem (s : State) (cond : Bool) (c : Config) : (s.skipIf cond c).mem = s.mem := by cases cond <;> rfl

@[simp] theorem State.skipIf_fb (s : State) (cond : Bool) (c : Config) : (s.skipIf cond c).fb = s.fb := by cases cond <;> rfl

@[simp] theorem State.skipIf_keys (s : State) (cond : Bool) (c : Config) : (s.skipIf cond c).keys = s.keys := by cases cond <;> rfl

@[simp] theorem State.skipIf_rndCount (s : State) (cond : Bool) (c : Config) : (s.skipIf cond c).rndCount = s.rndCount := by cases cond <;> rfl

/-! ## tick -/

@[simp] theorem State.tick_v (s : State) : (s.tick).v = s.v := rfl

@[simp] theorem State.tick_i (s : State) : (s.tick).i = s.i := rfl

@[simp] theorem State.tick_pc (s : State) : (s.tick).pc = s.pc := rfl

@[simp] theorem State.tick_sp (s : State) : (s.tick).sp = s.sp := rfl

@[simp] theorem State.tick_stack (s : State) : (s.tick).stack = s.stack := rfl

@[simp] theorem State.tick_dt (s : State) : (s.tick).dt = tickTimer s.dt := rfl

@[simp] theorem State.tick_st (s : State) : (s.tick).st = tickTimer s.st := rfl

@[simp] theorem State.tick_mem (s : State) : (s.tick).mem = s.mem := rfl

@[simp] theorem State.tick_fb (s : State) : (s.tick).fb = s.fb := rfl

@[simp] theorem State.tick_keys (s : State) : (s.tick).keys = s.keys := rfl

@[simp] theorem State.tick_rndCount (s : State) : (s.tick).rndCount = s.rndCount := rfl

/-! ## setPressed -/

@[simp] theorem State.setPressed_v (s : State) (k : Nibble) (b : Bool) : (s.setPressed k b).v = s.v := rfl

@[simp] theorem State.setPressed_i (s : State) (k : Nibble) (b : Bool) : (s.setPressed k b).i = s.i := rfl

@[simp] theorem State.setPressed_pc (s : State) (k : Nibble) (b : Bool) : (s.setPressed k b).pc = s.pc := rfl

@[simp] theorem State.setPressed_sp (s : State) (k : Nibble) (b : Bool) : (s.setPressed k b).sp = s.sp := rfl

@[simp] theorem State.setPressed_stack (s : State) (k : Nibble) (b : Bool) : (s.setPressed k b).stack = s.stack := rfl

@[simp] theorem State.setPressed_dt (s : State) (k : Nibble) (b : Bool) : (s.setPressed k b).dt = s.dt := rfl

@[simp] theorem State.setPressed_st (s : State) (k : Nibble) (b : Bool) : (s.setPressed k b).st = s.st := rfl

@[simp] theorem State.setPressed_mem (s : State) (k : Nibble) (b : Bool) : (s.setPressed k b).mem = s.mem := rfl

@[simp] theorem State.setPressed_fb (s : State) (k : Nibble) (b : Bool) : (s.setPressed k b).fb = s.fb := rfl

@[simp] theorem State.setPressed_keys (s : State) (k : Nibble) (b : Bool) : (s.setPressed k b).keys = s.keys.set k.toNat b k.isLt := rfl

@[simp] theorem State.setPressed_rndCount (s : State) (k : Nibble) (b : Bool) : (s.setPressed k b).rndCount = s.rndCount := rfl

/-! ## placeWord -/

@[simp] theorem State.placeWord_v (s : State) (n w : Nat) : (s.placeWord n w).v = s.v := rfl

@[simp] theorem State.placeWord_i (s : State) (n w : Nat) : (s.placeWord n w).i = s.i := rfl

@[simp] theorem State.placeWord_pc (s : State) (n w : Nat) : (s.placeWord n w).pc = s.pc := rfl

@[simp] theorem State.placeWord_sp (s : State) (n w : Nat) : (s.placeWord n w).sp = s.sp := rfl

@[simp] theorem State.placeWord_stack (s : State) (n w : Nat) : (s.placeWord n w).stack = s.stack := rfl

@[simp] theorem State.placeWord_dt (s : State) (n w : Nat) : (s.placeWord n w).dt = s.dt := rfl

@[simp] theorem State.placeWord_st (s : State) (n w : Nat) : (s.placeWord n w).st = s.st := rfl

@[simp] theorem State.placeWord_fb (s : State) (n w : Nat) : (s.placeWord n w).fb = s.fb := rfl

@[simp] theorem State.placeWord_keys (s : State) (n w : Nat) : (s.placeWord n w).keys = s.keys := rfl

@[simp] theorem State.placeWord_rndCount (s : State) (n w : Nat) : (s.placeWord n w).rndCount = s.rndCount := rfl

/-! ## Reading back -/

theorem State.reg_setReg (s : State) (r q : Reg) (b : Byte) : (s.setReg r b).reg q = if q = r then b else s.reg q := by
  by_cases h : r = q
  · simp [State.reg, State.setReg, h]
  · have h' : ¬ q = r := fun e => h e.symm
    simp [State.reg, State.setReg, BitVec.toNat_inj, h, h']

@[simp] theorem State.reg_setReg_same (s : State) (r : Reg) (b : Byte) : (s.setReg r b).reg r = b := by
  simp [State.reg_setReg]

theorem State.reg_setReg_other (s : State) {r q : Reg} (b : Byte) (h : q ≠ r) : (s.setReg r b).reg q = s.reg q := by
  simp [State.reg_setReg, h]

@[simp] theorem State.reg_advance (s : State) (c : Config) (q : Reg) : (s.advance c).reg q = s.reg q := rfl

@[simp] theorem State.reg_skipIf (s : State) (b : Bool) (c : Config) (q : Reg) : (s.skipIf b c).reg q = s.reg q := by
  cases b <;> rfl

@[simp] theorem State.reg_tick (s : State) (q : Reg) : s.tick.reg q = s.reg q := rfl

@[simp] theorem State.reg_setPressed (s : State) (k : Nibble) (b : Bool) (q : Reg) :
    (s.setPressed k b).reg q = s.reg q := rfl

/-- The flag wins over the result when the destination is `VF` (R150). -/
theorem State.reg_setRegThenFlag (s : State) (x q : Reg) (b : Byte) (f : Bool) :
    (s.setRegThenFlag x b f).reg q = if q = vf then flagByte f else if q = x then b else s.reg q := by
  simp [State.setRegThenFlag, State.reg_setReg]

theorem State.key_setPressed (s : State) (k q : Nibble) (b : Bool) :
    (s.setPressed k b).key q = if q = k then b else s.key q := by
  by_cases h : k = q
  · simp [State.key, State.setPressed, h]
  · have h' : ¬ q = k := fun e => h e.symm
    simp [State.key, State.setPressed, BitVec.toNat_inj, h, h']

@[simp] theorem Framebuffer.pixel_clear (x : Fin 64) (y : Fin 32) : Framebuffer.pixel Framebuffer.clear x y = false := by
  simp [Framebuffer.pixel, Framebuffer.clear]

theorem Framebuffer.pixel_flip (fb : Framebuffer) (x x' : Fin 64) (y y' : Fin 32) :
    Framebuffer.pixel (Framebuffer.flip fb x y) x' y' =
      if x' = x ∧ y' = y then !(Framebuffer.pixel fb x' y') else Framebuffer.pixel fb x' y' := by
  simp only [Framebuffer.pixel, Framebuffer.flip, Fin.getElem_fin, Vector.getElem_set, Fin.ext_iff]
  by_cases hy : y.val = y'.val
  · by_cases hx : x.val = x'.val
    · simp [hx, hy]
    · simp [hx, hy, eq_comm]
  · have : ¬ y'.val = y.val := fun h => hy h.symm
    simp [hy, this]

end Sys2Proof.Machine
end

