-- ==== Sys2Proof/Laws/Ops.lean ====
section
/-! SUPPORT. What each shared operation can do, said once: later proofs cite these instead of unfolding the operation. -/

namespace Sys2Proof.Machine

/-! ## The program counter -/

/-- The advance is modulo `0x1000` (R130). -/
theorem toNat_nextPc_mask (pc : Word) : (nextPc .mask pc).toNat = (pc.toNat + 2) % 0x1000 := by
  have h : (0x0FFF#16).toNat = 2 ^ 12 - 1 := rfl
  simp only [nextPc, BitVec.toNat_and, h, Nat.and_two_pow_sub_one_eq_mod, BitVec.toNat_add, BitVec.toNat_ofNat]
  omega

/-- After the advance `PC` is below `0x1000`, and even if it was. -/
theorem nextPc_mask_even {pc : Word} (h : pc.toNat % 2 = 0) :
    (nextPc .mask pc).toNat ≤ 0xFFE ∧ (nextPc .mask pc).toNat % 2 = 0 := by
  rw [toNat_nextPc_mask]; omega

theorem toNat_toWord {a : Nat} (h : a < 0x10000) : (toWord a).toNat = a := by
  simp only [toWord, BitVec.toNat_ofNat]
  omega

/-- The flag byte is 0 or 1 (R22). -/
theorem toNat_flagByte (b : Bool) : (flagByte b).toNat = if b then 1 else 0 := by cases b <;> rfl

/-- A field `NNN` as a value of `PC` or `I` is zero-extended (R94). -/
theorem toWord_addr (nnn : Addr) : toWord nnn.toNat = nnn.setWidth 16 := by
  apply BitVec.eq_of_toNat_eq
  simp [toWord]

/-! ## Addresses and reads -/

@[simp] theorem effAddr_mask (a : Nat) : effAddr .mask a = .ok (a % memSize) := rfl

/-- Under masking a read never fails (R63): the byte of each address, reduced to 12 bits. -/
theorem readBytes_mask (m : Memory) : ∀ (n base : Nat),
    readBytes .mask m base n = .ok ((List.range' base n).map (fun a => m.read (a % memSize)))
  | 0, _ => rfl
  | n + 1, base => by
    simp only [readBytes, effAddr_mask, readBytes_mask m n (base + 1), List.range'_succ, List.map_cons]

theorem fetch_hardware (s : State) :
    s.fetch Config.hardware =
      .ok (wordOfBytes (s.mem.read (s.pc.toNat % memSize)) (s.mem.read ((s.pc.toNat + 1) % memSize))) := rfl

/-! ## Stores -/

/-- The effective addresses of a store that passes its checks are writable and inside the address space. -/
theorem storeAddr_ok {p : AddrPolicy} {a ea : Nat} (h : storeAddr p a = .ok ea) : progBase ≤ ea ∧ ea < memSize := by
  cases p
  · simp only [storeAddr, effAddr_mask] at h
    split at h
    · cases h
    · cases h
      exact ⟨by omega, Nat.mod_lt _ (by decide)⟩
  · simp only [storeAddr, effAddr] at h
    split at h
    · cases h
    · rename_i hr
      split at hr <;> cases hr
      split at h <;> cases h
      exact ⟨by omega, by assumption⟩

theorem storeAddrs_ok {p : AddrPolicy} : ∀ {n base : Nat} {eas : List Nat}, storeAddrs p base n = .ok eas →
    eas.length = n ∧ ∀ ea ∈ eas, progBase ≤ ea ∧ ea < memSize
  | 0, _, eas, h => by cases h; simp
  | n + 1, base, eas, h => by
    unfold storeAddrs at h
    split at h
    · cases h
    · rename_i ea he
      split at h
      · cases h
      · rename_i rest hr
        cases h
        obtain ⟨h1, h2⟩ := storeAddrs_ok hr
        refine ⟨by simp [h1], fun e hm => ?_⟩
        rcases List.mem_cons.mp hm with rfl | hm
        · exact storeAddr_ok he
        · exact h2 e hm

/-- Under masking the checks pass exactly when no masked address is below `0x200`; the addresses are then the masked
ones, in order (R184). -/
theorem storeAddrs_mask : ∀ {n base : Nat}, (∀ k, k < n → progBase ≤ (base + k) % memSize) →
    storeAddrs .mask base n = .ok ((List.range' base n).map (· % memSize))
  | 0, _, _ => rfl
  | n + 1, base, h => by
    have h0 : ¬ base % memSize < progBase := by
      have := h 0 (by omega)
      rw [Nat.add_zero] at this
      omega
    have hr := storeAddrs_mask (n := n) (base := base + 1) (fun k hk => by
      have := h (k + 1) (by omega)
      rwa [show base + (k + 1) = base + 1 + k by omega] at this)
    simp only [storeAddrs, storeAddr, effAddr_mask, h0, if_false, hr, List.range'_succ, List.map_cons]

/-- Under masking the checks fail with the first masked address below `0x200`, in order of `k` (R184, R257). -/
theorem storeAddrs_mask_protected : ∀ {n base k : Nat}, k < n → (base + k) % memSize < progBase →
    (∀ j, j < k → progBase ≤ (base + j) % memSize) →
    storeAddrs .mask base n = .error (.protectedWrite ((base + k) % memSize))
  | n + 1, base, 0, _, hp, _ => by
    simp only [Nat.add_zero] at hp ⊢
    simp only [storeAddrs, storeAddr, effAddr_mask, hp, if_true]
  | n + 1, base, k + 1, hk, hp, hf => by
    have h0 : ¬ base % memSize < progBase := by
      have := hf 0 (by omega)
      rw [Nat.add_zero] at this
      omega
    have e : base + (k + 1) = base + 1 + k := by omega
    rw [e] at hp ⊢
    have hr := storeAddrs_mask_protected (n := n) (base := base + 1) (k := k) (by omega) hp (fun j hj => by
      have := hf (j + 1) (by omega)
      rwa [show base + (j + 1) = base + 1 + j by omega] at this)
    simp only [storeAddrs, storeAddr, effAddr_mask, h0, if_false, hr]

/-- A store that passes its checks keeps the canonical form and every byte below `0x200` (R65). -/
theorem storeBytes_ok {p : AddrPolicy} {m m' : Memory} {base : Nat} {bytes : List Byte}
    (h : storeBytes p m base bytes = .ok m') :
    (m.wf = true → m'.wf = true) ∧ ∀ q, q < progBase → m'.read q = m.read q := by
  unfold storeBytes at h
  split at h
  · cases h
  · rename_i eas he
    cases h
    have hs := (storeAddrs_ok he).2
    constructor
    · exact fun hm => Memory.wf_writeAll (fun p hp => (hs _ (List.of_mem_zip hp).1).2) hm
    · intro q hq
      refine Memory.read_writeAll_other _ _ (fun p hp e => ?_)
      have := (hs _ (List.of_mem_zip hp).1).1
      omega

/-! ## The stack -/

/-- What `Push` does when it answers (R27). -/
theorem State.push_ok {s t : State} {a : Word} (h : s.push a = .ok t) :
    ∃ hl : s.sp.toNat < 16, t = { s with stack := s.stack.set s.sp.toNat a hl, sp := s.sp + 1#8 } := by
  unfold State.push at h
  split at h
  · cases h
    exact ⟨by assumption, rfl⟩
  · split at h <;> cases h

/-- What `Pop` does when it answers (R28). -/
theorem State.pop_ok {s t : State} {a : Word} (h : s.pop = .ok (a, t)) :
    ∃ hl : s.sp.toNat - 1 < 16, s.sp ≠ 0#8 ∧ a = s.stack[s.sp.toNat - 1]'hl ∧ t = { s with sp := s.sp - 1#8 } := by
  unfold State.pop at h
  split at h
  · cases h
  · split at h
    · cases h
      exact ⟨by assumption, by assumption, rfl, rfl⟩
    · cases h

/-- `Push` with room for an entry (R27). -/
theorem State.push_of_lt {s : State} {a : Word} (h : s.sp.toNat < 16) :
    s.push a = .ok { s with stack := s.stack.set s.sp.toNat a h, sp := s.sp + 1#8 } := by
  simp only [State.push, h, dite_true]

/-- `Push` on the full stack (R27). -/
theorem State.push_full {s : State} {a : Word} (h : s.sp.toNat = 16) : s.push a = .error .overflow := by
  have h16 : s.sp = 16#8 := BitVec.eq_of_toNat_eq h
  simp [State.push, h16]

/-- `Push` where the spec has no entry (log entry 8). -/
theorem State.push_outOfRange {s : State} {a : Word} (h : 16 < s.sp.toNat) : s.push a = .error (.outOfRange s.sp) := by
  have h1 : ¬ s.sp.toNat < 16 := by omega
  have h16 : s.sp ≠ 16#8 := fun e => by rw [e] at h; simp at h
  simp only [State.push, h1, dite_false, h16, if_false]

/-- `Pop` with `k + 1` entries (R28). -/
theorem State.pop_of_eq {s : State} {k : Nat} (hk : k < 16) (h : s.sp.toNat = k + 1) :
    s.pop = .ok (s.stack[k], { s with sp := s.sp - 1#8 }) := by
  have h0 : s.sp ≠ 0#8 := fun e => by rw [e] at h; simp at h
  have e : s.sp.toNat - 1 = k := by omega
  simp only [State.pop, h0, if_false, e, hk, dite_true]

/-- `Pop` on the empty stack (R28). -/
theorem State.pop_empty {s : State} (h : s.sp.toNat = 0) : s.pop = .error .underflow := by
  have h0 : s.sp = 0#8 := BitVec.eq_of_toNat_eq h
  simp [State.pop, h0]

/-- `Pop` where the spec has no entry (log entry 8). -/
theorem State.pop_outOfRange {s : State} (h : 16 < s.sp.toNat) : s.pop = .error (.outOfRange s.sp) := by
  have h0 : s.sp ≠ 0#8 := fun e => by rw [e] at h; simp at h
  have h1 : ¬ s.sp.toNat - 1 < 16 := by omega
  simp only [State.pop, h0, if_false, h1, dite_false]

/-- `Push` does not fail by a stack pointer out of range while `SP <= 16`. -/
theorem State.push_error {s : State} {a : Word} {e : StackError} (hs : s.sp.toNat ≤ 16) (h : s.push a = .error e) :
    e = .overflow ∧ s.sp = 16#8 := by
  unfold State.push at h
  split at h
  · cases h
  · have h16 : s.sp = 16#8 := BitVec.eq_of_toNat_eq (by simp; omega)
    simp only [h16, if_true] at h
    cases h
    exact ⟨rfl, h16⟩

/-- `Pop` does not fail by a stack pointer out of range while `SP <= 16`. -/
theorem State.pop_error {s : State} {e : StackError} (hs : s.sp.toNat ≤ 16) (h : s.pop = .error e) :
    e = .underflow ∧ s.sp = 0#8 := by
  unfold State.pop at h
  split at h
  · cases h
    exact ⟨rfl, by assumption⟩
  · split at h
    · cases h
    · omega

/-! ## Block moves -/

/-- What `V[k], V[k+1], ... <- bytes` leaves in a register (R186). -/
theorem getElem_setRegsFrom : ∀ (bytes : List Byte) (v : Vector Byte 16) (k j : Nat) (hj : j < 16),
    (setRegsFrom v k bytes)[j] =
      if h : k ≤ j ∧ j - k < bytes.length then bytes[j - k]'h.2 else v[j]
  | [], v, k, j, hj => by simp [setRegsFrom]
  | b :: rest, v, k, j, hj => by
    rw [setRegsFrom, getElem_setRegsFrom rest _ (k + 1) j hj, Vector.getElem_setIfInBounds]
    by_cases h1 : k = j
    · subst h1
      simp
    · by_cases h2 : k + 1 ≤ j
      · have e : j - k = (j - (k + 1)) + 1 := by omega
        by_cases h3 : j - (k + 1) < rest.length
        · have h4 : k ≤ j ∧ j - k < (b :: rest).length := ⟨by omega, by simp; omega⟩
          rw [dif_pos ⟨h2, h3⟩, dif_pos h4]
          simp only [e, List.getElem_cons_succ]
        · have h4 : ¬ (k ≤ j ∧ j - k < (b :: rest).length) := by simp; omega
          rw [dif_neg (fun h => h3 h.2), dif_neg h4, if_neg h1]
      · have h4 : ¬ (k ≤ j ∧ j - k < (b :: rest).length) := by omega
        have h5 : ¬ (k + 1 ≤ j ∧ j - (k + 1) < rest.length) := by omega
        rw [dif_neg h5, dif_neg h4, if_neg h1]

/-- The dumped bytes are the registers' values, `V[0]` first (R185). -/
theorem length_regsUpTo (s : State) (x : Reg) : (s.regsUpTo x).length = x.toNat + 1 := by
  have := x.isLt
  simp [State.regsUpTo]
  omega

theorem getElem_regsUpTo (s : State) (x : Reg) (k : Nat) (h : k < (s.regsUpTo x).length) (hk : k < 16) :
    (s.regsUpTo x)[k] = s.v[k] := by
  simp [State.regsUpTo]

/-! ## Keys -/

theorem firstDown_some : ∀ {l : List Bool} {k n : Nat}, firstDown k l = some n →
    k ≤ n ∧ (∃ h : n - k < l.length, l[n - k] = true) ∧ ∀ j, (h : j < l.length) → k + j < n → l[j] = false
  | b :: rest, k, n, h => by
    unfold firstDown at h
    split at h
    · cases h
      exact ⟨Nat.le_refl _, ⟨by simp, by simpa using (by assumption)⟩, fun j _ hj => by omega⟩
    · rename_i hb
      obtain ⟨h1, ⟨h2, h3⟩, h4⟩ := firstDown_some h
      have e : n - k = (n - (k + 1)) + 1 := by omega
      refine ⟨by omega, ⟨by simp; omega, by simp only [e, List.getElem_cons_succ]; exact h3⟩, fun j hj hlt => ?_⟩
      cases j with
      | zero => simpa using hb
      | succ j => simpa using h4 j (by simpa using hj) (by omega)

theorem firstDown_none : ∀ {l : List Bool} {k : Nat}, firstDown k l = none ↔ ∀ b ∈ l, b = false
  | [], k => by simp [firstDown]
  | b :: rest, k => by
    unfold firstDown
    cases b
    · simpa using firstDown_none (l := rest) (k := k + 1)
    · simp

/-- No key is down (R222). -/
theorem lowestKey_none (s : State) : s.lowestKey = none ↔ ∀ k, s.key k = false := by
  unfold State.lowestKey
  rw [firstDown_none]
  constructor
  · exact fun h k => h _ (by simp [State.key])
  · intro h b hb
    obtain ⟨j, hj, rfl⟩ := List.getElem_of_mem hb
    have hj' : j < 16 := by simpa using hj
    have := h (BitVec.ofNat 4 j)
    simpa [State.key, Nat.mod_eq_of_lt hj'] using this

/-- The lowest key is down, and no lower one is (R222, decision D10). -/
theorem lowestKey_some {s : State} {n : Nat} (h : s.lowestKey = some n) :
    n < 16 ∧ s.key (BitVec.ofNat 4 n) = true ∧ ∀ j, j < n → s.key (BitVec.ofNat 4 j) = false := by
  obtain ⟨-, ⟨h2, h3⟩, h4⟩ := firstDown_some h
  have hn : n < 16 := by simpa using h2
  refine ⟨hn, ?_, fun j hj => ?_⟩
  · simpa [State.key, Nat.mod_eq_of_lt hn] using h3
  · have := h4 j (by simp; omega) (by omega)
    simpa [State.key, Nat.mod_eq_of_lt (show j < 16 by omega)] using this

end Sys2Proof.Machine
end

