-- ==== Sys2Proof/Laws/PerInstr.lean ====
section
/-! SUPPORT. What is proved of each instruction as syntax: its word fits its row of the opcode map (30_encoding.md R96). -/

namespace Sys2Proof

/-! ## The formats under the masks of the map -/

theorem getLsbD_encodeAddr (f : Nibble) (nnn : Addr) (k : Nat) :
    (encodeAddr f nnn).getLsbD k = if k < 12 then nnn.getLsbD k else f.getLsbD (k - 12) :=
  (BitVec.getLsbD_append (x := f) (y := nnn)).trans (by split <;> simp_all)

theorem getLsbD_encodeXNN (f : Nibble) (x : Reg) (nn : Byte) (k : Nat) :
    (encodeXNN f x nn).getLsbD k =
      if k < 8 then nn.getLsbD k else if k < 12 then x.getLsbD (k - 8) else f.getLsbD (k - 12) := by
  have h : (encodeXNN f x nn).getLsbD k = (f ++ (x ++ nn)).getLsbD k := rfl
  rw [h, BitVec.getLsbD_append, BitVec.getLsbD_append]
  split <;> split <;> simp_all
  all_goals omega

theorem getLsbD_encodeXYN (f : Nibble) (x y : Reg) (n : Nibble) (k : Nat) :
    (encodeXYN f x y n).getLsbD k =
      if k < 4 then n.getLsbD k else if k < 8 then y.getLsbD (k - 4)
      else if k < 12 then x.getLsbD (k - 8) else f.getLsbD (k - 12) := by
  have h : (encodeXYN f x y n).getLsbD k = (f ++ (x ++ (y ++ n))).getLsbD k := rfl
  rw [h, BitVec.getLsbD_append, BitVec.getLsbD_append, BitVec.getLsbD_append]
  by_cases h1 : k < 4
  · simp [h1, show k < 8 by omega, show k < 12 by omega]
  · by_cases h2 : k < 8
    · simp [h1, h2, show k < 12 by omega]
    · by_cases h3 : k < 12
      · simp [h1, h2, h3]
      · simp [h1, h2, h3]

theorem encodeAddr_mask_family (f : Nibble) (nnn : Addr) : encodeAddr f nnn &&& 0xF000#16 = encodeAddr f 0#12 := by
  apply BitVec.eq_of_getLsbD_eq
  intro k hk
  rw [BitVec.getLsbD_and, getLsbD_encodeAddr, getLsbD_encodeAddr]
  interval_cases k <;> simp

theorem encodeXNN_mask_family (f : Nibble) (x : Reg) (nn : Byte) :
    encodeXNN f x nn &&& 0xF000#16 = encodeXNN f 0#4 0#8 := by
  apply BitVec.eq_of_getLsbD_eq
  intro k hk
  rw [BitVec.getLsbD_and, getLsbD_encodeXNN, getLsbD_encodeXNN]
  interval_cases k <;> simp

theorem encodeXNN_mask_selector (f : Nibble) (x : Reg) (nn : Byte) :
    encodeXNN f x nn &&& 0xF0FF#16 = encodeXNN f 0#4 nn := by
  apply BitVec.eq_of_getLsbD_eq
  intro k hk
  rw [BitVec.getLsbD_and, getLsbD_encodeXNN, getLsbD_encodeXNN]
  interval_cases k <;> simp

theorem encodeXYN_mask_family (f : Nibble) (x y : Reg) (n : Nibble) :
    encodeXYN f x y n &&& 0xF000#16 = encodeXYN f 0#4 0#4 0#4 := by
  apply BitVec.eq_of_getLsbD_eq
  intro k hk
  rw [BitVec.getLsbD_and, getLsbD_encodeXYN, getLsbD_encodeXYN]
  interval_cases k <;> simp

theorem encodeXYN_mask_selector (f : Nibble) (x y : Reg) (n : Nibble) :
    encodeXYN f x y n &&& 0xF00F#16 = encodeXYN f 0#4 0#4 n := by
  apply BitVec.eq_of_getLsbD_eq
  intro k hk
  rw [BitVec.getLsbD_and, getLsbD_encodeXYN, getLsbD_encodeXYN]
  interval_cases k <;> simp

/-! ## The law -/

/-- The instruction's word matches the row of the opcode map that has its mnemonic (R96: `op & mask = match`). For SYS it
is the row's own match; that the two rows before it do not match is the well-formedness of the term. -/
def Laws.FitsItsRow.Statement (i : Instr) : Prop :=
  ∃ r ∈ opcodeMap, r.mnemonic = i.mnemonic ∧ encodeWord i &&& r.mask = r.pattern

theorem Laws.FitsItsRow.cls : Laws.FitsItsRow.Statement (.cls) :=
  ⟨⟨0xFFFF, 0x00E0, "CLS"⟩, by decide, rfl, rfl⟩

theorem Laws.FitsItsRow.ret : Laws.FitsItsRow.Statement (.ret) :=
  ⟨⟨0xFFFF, 0x00EE, "RET"⟩, by decide, rfl, rfl⟩

theorem Laws.FitsItsRow.sys (nnn : Addr) : Laws.FitsItsRow.Statement (.sys nnn) :=
  ⟨⟨0xF000, 0x0000, "SYS_NNN"⟩, by simp [opcodeMap], rfl, encodeAddr_mask_family ..⟩

theorem Laws.FitsItsRow.jp (nnn : Addr) : Laws.FitsItsRow.Statement (.jp nnn) :=
  ⟨⟨0xF000, 0x1000, "JP_NNN"⟩, by simp [opcodeMap], rfl, encodeAddr_mask_family ..⟩

theorem Laws.FitsItsRow.call (nnn : Addr) : Laws.FitsItsRow.Statement (.call nnn) :=
  ⟨⟨0xF000, 0x2000, "CALL_NNN"⟩, by simp [opcodeMap], rfl, encodeAddr_mask_family ..⟩

theorem Laws.FitsItsRow.seImm (x : Reg) (nn : Byte) : Laws.FitsItsRow.Statement (.seImm x nn) :=
  ⟨⟨0xF000, 0x3000, "SE_Vx_NN"⟩, by simp [opcodeMap], rfl, encodeXNN_mask_family ..⟩

theorem Laws.FitsItsRow.sneImm (x : Reg) (nn : Byte) : Laws.FitsItsRow.Statement (.sneImm x nn) :=
  ⟨⟨0xF000, 0x4000, "SNE_Vx_NN"⟩, by simp [opcodeMap], rfl, encodeXNN_mask_family ..⟩

theorem Laws.FitsItsRow.seReg (x : Reg) (y : Reg) : Laws.FitsItsRow.Statement (.seReg x y) :=
  ⟨⟨0xF00F, 0x5000, "SE_Vx_Vy"⟩, by simp [opcodeMap], rfl, encodeXYN_mask_selector ..⟩

theorem Laws.FitsItsRow.ldImm (x : Reg) (nn : Byte) : Laws.FitsItsRow.Statement (.ldImm x nn) :=
  ⟨⟨0xF000, 0x6000, "LD_Vx_NN"⟩, by simp [opcodeMap], rfl, encodeXNN_mask_family ..⟩

theorem Laws.FitsItsRow.addImm (x : Reg) (nn : Byte) : Laws.FitsItsRow.Statement (.addImm x nn) :=
  ⟨⟨0xF000, 0x7000, "ADD_Vx_NN"⟩, by simp [opcodeMap], rfl, encodeXNN_mask_family ..⟩

theorem Laws.FitsItsRow.ldReg (x : Reg) (y : Reg) : Laws.FitsItsRow.Statement (.ldReg x y) :=
  ⟨⟨0xF00F, 0x8000, "LD_Vx_Vy"⟩, by simp [opcodeMap], rfl, encodeXYN_mask_selector ..⟩

theorem Laws.FitsItsRow.orReg (x : Reg) (y : Reg) : Laws.FitsItsRow.Statement (.orReg x y) :=
  ⟨⟨0xF00F, 0x8001, "OR_Vx_Vy"⟩, by simp [opcodeMap], rfl, encodeXYN_mask_selector ..⟩

theorem Laws.FitsItsRow.andReg (x : Reg) (y : Reg) : Laws.FitsItsRow.Statement (.andReg x y) :=
  ⟨⟨0xF00F, 0x8002, "AND_Vx_Vy"⟩, by simp [opcodeMap], rfl, encodeXYN_mask_selector ..⟩

theorem Laws.FitsItsRow.xorReg (x : Reg) (y : Reg) : Laws.FitsItsRow.Statement (.xorReg x y) :=
  ⟨⟨0xF00F, 0x8003, "XOR_Vx_Vy"⟩, by simp [opcodeMap], rfl, encodeXYN_mask_selector ..⟩

theorem Laws.FitsItsRow.addReg (x : Reg) (y : Reg) : Laws.FitsItsRow.Statement (.addReg x y) :=
  ⟨⟨0xF00F, 0x8004, "ADD_Vx_Vy"⟩, by simp [opcodeMap], rfl, encodeXYN_mask_selector ..⟩

theorem Laws.FitsItsRow.sub (x : Reg) (y : Reg) : Laws.FitsItsRow.Statement (.sub x y) :=
  ⟨⟨0xF00F, 0x8005, "SUB_Vx_Vy"⟩, by simp [opcodeMap], rfl, encodeXYN_mask_selector ..⟩

theorem Laws.FitsItsRow.shr (x : Reg) (y : Reg) : Laws.FitsItsRow.Statement (.shr x y) :=
  ⟨⟨0xF00F, 0x8006, "SHR_Vx_Vy"⟩, by simp [opcodeMap], rfl, encodeXYN_mask_selector ..⟩

theorem Laws.FitsItsRow.subn (x : Reg) (y : Reg) : Laws.FitsItsRow.Statement (.subn x y) :=
  ⟨⟨0xF00F, 0x8007, "SUBN_Vx_Vy"⟩, by simp [opcodeMap], rfl, encodeXYN_mask_selector ..⟩

theorem Laws.FitsItsRow.shl (x : Reg) (y : Reg) : Laws.FitsItsRow.Statement (.shl x y) :=
  ⟨⟨0xF00F, 0x800E, "SHL_Vx_Vy"⟩, by simp [opcodeMap], rfl, encodeXYN_mask_selector ..⟩

theorem Laws.FitsItsRow.sneReg (x : Reg) (y : Reg) : Laws.FitsItsRow.Statement (.sneReg x y) :=
  ⟨⟨0xF00F, 0x9000, "SNE_Vx_Vy"⟩, by simp [opcodeMap], rfl, encodeXYN_mask_selector ..⟩

theorem Laws.FitsItsRow.ldI (nnn : Addr) : Laws.FitsItsRow.Statement (.ldI nnn) :=
  ⟨⟨0xF000, 0xA000, "LD_I_NNN"⟩, by simp [opcodeMap], rfl, encodeAddr_mask_family ..⟩

theorem Laws.FitsItsRow.jpV0 (nnn : Addr) : Laws.FitsItsRow.Statement (.jpV0 nnn) :=
  ⟨⟨0xF000, 0xB000, "JP_V0_NNN"⟩, by simp [opcodeMap], rfl, encodeAddr_mask_family ..⟩

theorem Laws.FitsItsRow.rnd (x : Reg) (nn : Byte) : Laws.FitsItsRow.Statement (.rnd x nn) :=
  ⟨⟨0xF000, 0xC000, "RND_Vx_NN"⟩, by simp [opcodeMap], rfl, encodeXNN_mask_family ..⟩

theorem Laws.FitsItsRow.drw (x : Reg) (y : Reg) (n : Nibble) : Laws.FitsItsRow.Statement (.drw x y n) :=
  ⟨⟨0xF000, 0xD000, "DRW_Vx_Vy_N"⟩, by simp [opcodeMap], rfl, encodeXYN_mask_family ..⟩

theorem Laws.FitsItsRow.skp (x : Reg) : Laws.FitsItsRow.Statement (.skp x) :=
  ⟨⟨0xF0FF, 0xE09E, "SKP_Vx"⟩, by simp [opcodeMap], rfl, encodeXNN_mask_selector ..⟩

theorem Laws.FitsItsRow.sknp (x : Reg) : Laws.FitsItsRow.Statement (.sknp x) :=
  ⟨⟨0xF0FF, 0xE0A1, "SKNP_Vx"⟩, by simp [opcodeMap], rfl, encodeXNN_mask_selector ..⟩

theorem Laws.FitsItsRow.ldVxDt (x : Reg) : Laws.FitsItsRow.Statement (.ldVxDt x) :=
  ⟨⟨0xF0FF, 0xF007, "LD_Vx_DT"⟩, by simp [opcodeMap], rfl, encodeXNN_mask_selector ..⟩

theorem Laws.FitsItsRow.ldVxK (x : Reg) : Laws.FitsItsRow.Statement (.ldVxK x) :=
  ⟨⟨0xF0FF, 0xF00A, "LD_Vx_K"⟩, by simp [opcodeMap], rfl, encodeXNN_mask_selector ..⟩

theorem Laws.FitsItsRow.ldDtVx (x : Reg) : Laws.FitsItsRow.Statement (.ldDtVx x) :=
  ⟨⟨0xF0FF, 0xF015, "LD_DT_Vx"⟩, by simp [opcodeMap], rfl, encodeXNN_mask_selector ..⟩

theorem Laws.FitsItsRow.ldStVx (x : Reg) : Laws.FitsItsRow.Statement (.ldStVx x) :=
  ⟨⟨0xF0FF, 0xF018, "LD_ST_Vx"⟩, by simp [opcodeMap], rfl, encodeXNN_mask_selector ..⟩

theorem Laws.FitsItsRow.addI (x : Reg) : Laws.FitsItsRow.Statement (.addI x) :=
  ⟨⟨0xF0FF, 0xF01E, "ADD_I_Vx"⟩, by simp [opcodeMap], rfl, encodeXNN_mask_selector ..⟩

theorem Laws.FitsItsRow.ldF (x : Reg) : Laws.FitsItsRow.Statement (.ldF x) :=
  ⟨⟨0xF0FF, 0xF029, "LD_F_Vx"⟩, by simp [opcodeMap], rfl, encodeXNN_mask_selector ..⟩

theorem Laws.FitsItsRow.ldB (x : Reg) : Laws.FitsItsRow.Statement (.ldB x) :=
  ⟨⟨0xF0FF, 0xF033, "LD_B_Vx"⟩, by simp [opcodeMap], rfl, encodeXNN_mask_selector ..⟩

theorem Laws.FitsItsRow.ldMemVx (x : Reg) : Laws.FitsItsRow.Statement (.ldMemVx x) :=
  ⟨⟨0xF0FF, 0xF055, "LD__I__Vx"⟩, by simp [opcodeMap], rfl, encodeXNN_mask_selector ..⟩

theorem Laws.FitsItsRow.ldVxMem (x : Reg) : Laws.FitsItsRow.Statement (.ldVxMem x) :=
  ⟨⟨0xF0FF, 0xF065, "LD_Vx__I"⟩, by simp [opcodeMap], rfl, encodeXNN_mask_selector ..⟩

end Sys2Proof
end

