-- ==== Sys2Proof/Laws/Step.lean ====
section
/-! SUPPORT. What a step can do: the inversion of the cycle, the configured machine under this hardware's configuration,
and what raising a fault is not. -/

namespace Sys2Proof.Machine

/-! ## The configured machine -/

/-- Under this hardware's configuration the configured machine is the machine. -/
theorem exec_eq_execUnder (i : Instr) (s : State) : exec i s = execUnder Config.hardware i s := by
  cases i <;> rfl

theorem step_eq_stepUnder (s : State) : step s = stepUnder Config.hardware s := by
  have h : exec = execUnder Config.hardware := by
    funext i s
    exact exec_eq_execUnder i s
  rw [step, stepUnder, h]

/-! ## Raising a fault gives no next state -/

@[simp] theorem raiseStore_ne_next (e : StoreError) (i : Instr) (s t : State) : raiseStore e i s ≠ .next t := by
  cases e <;> exact fun h => by cases h

@[simp] theorem raiseStack_ne_next (e : StackError) (i : Instr) (s t : State) : raiseStack e i s ≠ .next t := by
  cases e <;> exact fun h => by cases h

@[simp] theorem raiseOutOfBounds_ne_next (a : Nat) (i : Instr) (s t : State) : raiseOutOfBounds a i s ≠ .next t :=
  fun h => by cases h

@[simp] theorem raiseUnknown_ne_next (op : Word) (s t : State) : raiseUnknown op s ≠ .next t := fun h => by cases h

@[simp] theorem raiseMisaligned_ne_next (a : Word) (i : Instr) (s t : State) : raiseMisaligned a i s ≠ .next t :=
  fun h => by cases h

@[simp] theorem raiseStore_ne_refused (e : StoreError) (i : Instr) (s : State) (r : Refusal) :
    raiseStore e i s ≠ .refused r := by
  cases e <;> exact fun h => by cases h

/-! ## The inversion of the cycle -/

/-- The step is the decoder's answer on the word at `PC`: `UnknownOpcode`, or the instruction's meaning (R90). -/
theorem step_eq (s : State) :
    step s = match decodeWord (wordAtPc s) with
      | none => raiseUnknown (wordAtPc s) s
      | some i => exec i s := rfl

/-- A step that answers a next state ran an instruction. -/
theorem step_next {s t : State} (h : step s = .next t) :
    ∃ i, decodeWord (wordAtPc s) = some i ∧ exec i s = .next t := by
  rw [step_eq] at h
  cases hd : decodeWord (wordAtPc s) with
  | none => simp [hd] at h
  | some i => exact ⟨i, rfl, by simpa [hd] using h⟩

/-- A step that refuses is an instruction's meaning that refuses. -/
theorem step_refused {s : State} {r : Refusal} (h : step s = .refused r) :
    ∃ i, decodeWord (wordAtPc s) = some i ∧ exec i s = .refused r := by
  rw [step_eq] at h
  cases hd : decodeWord (wordAtPc s) with
  | none => simp [hd, raiseUnknown] at h
  | some i => exact ⟨i, rfl, by simpa [hd] using h⟩

/-! ## What the shared parts of the meanings answer -/

/-- A jump that answers has an even target (R129). -/
theorem jumpTo_next {target : Nat} {i : Instr} {s t : State} (h : jumpTo target i s = .next t) :
    target % 2 = 0 ∧ t = { s with pc := toWord target } := by
  unfold jumpTo at h
  split at h
  · rename_i he
    cases h
    exact ⟨by simpa [isEven] using he, rfl⟩
  · exact absurd h (by simp)

/-- A store at `I` that answers changes memory and the program counter, memory as `storeBytes` says. -/
theorem storeAtI_next {bytes : List Byte} {i : Instr} {s t : State} {c : Config} (h : storeAtI bytes i s c = .next t) :
    ∃ mem, storeBytes c.addrPolicy s.mem s.i.toNat bytes = .ok mem ∧ t = { s.advance c with mem := mem } := by
  unfold storeAtI at h
  split at h
  · exact absurd h (by simp)
  · rename_i mem hm
    cases h
    exact ⟨mem, hm, rfl⟩

end Sys2Proof.Machine
end

