-- ==== Sys2Proof/Laws/System.lean ====
section
/-! SUPPORT. What an event can do at a state, and what each event does at a block that has one. -/

namespace Sys2Proof.Machine

/-- Everything an event that answers a next state can be. -/
theorem State.event_cases {s t : State} {e : Event} (h : s.event e = .next t) :
    (e = .step ∧ step s = .next t) ∨ (e = .tick ∧ t = s.tick) ∨
    (∃ k b, e = .setPressed k b ∧ t = s.setPressed k b) ∨
    ∃ rom, e = .reset rom ∧ State.resetWith s.rndCount rom = .next t := by
  cases e with
  | step => exact .inl ⟨rfl, h⟩
  | tick => cases h; exact .inr (.inl ⟨rfl, rfl⟩)
  | setPressed k b => cases h; exact .inr (.inr (.inl ⟨k, b, rfl, rfl⟩))
  | reset rom => exact .inr (.inr (.inr ⟨rom, rfl, h⟩))

@[simp] theorem System.drawn_some (s : State) (report : Option Fault) (draws : Nat) :
    (System.mk (some s) report draws).drawn = s.rndCount := rfl

@[simp] theorem System.drawn_none (report : Option Fault) (draws : Nat) :
    (System.mk none report draws).drawn = draws := rfl

/-- The step event at a block with a state is `stepAt` of it. -/
theorem System.event_step {sys : System} {s : State} (h : sys.machine = some s) : sys.event .step = sys.stepAt s := by
  simp only [System.event, h]

/-- A Reset at the block, where `State.resetWith` answers a state. -/
theorem System.event_reset_next {sys : System} {rom : List Byte} {s : State}
    (h : State.resetWith sys.drawn rom = .next s) : sys.event (.reset rom) = (.ok, ⟨some s, none, sys.drawn⟩) := by
  simp only [System.event, h]

/-- The advance under `ADDR_POLICY = check` does not wrap at `0x1000` (R245). -/
theorem nextPc_check (pc : Word) : nextPc .check pc = pc + 2#16 := rfl

end Sys2Proof.Machine
end

