-- ==== Sys2Proof/Tests/Slice0.lean ====
section
/-! SUPPORT. Tests of the model, and a state that meets the hypotheses of each obligation that has some. An expected value
comes from 95_test_vectors.md, whose row or section the docstring names (F, A, M, G, K, T rows of Part 2, S sections of
Part 1), or from the rule it names. -/

namespace Sys2Proof.Tests

open Sys2Proof Sys2Proof.Machine

/-! ## Small states -/

/-- The reset state with `PC` moved and one instruction word there. -/
def word (pc : Word) (w : Nat) : State := { State.reset with pc := pc }.placeWord 16 w

/-- A state with some registers set. -/
def withRegs (s : State) (l : List (Reg × Byte)) : State := l.foldl (fun s p => s.setReg p.1 p.2) s

/-- A state with some bytes stored. -/
def withBytes (s : State) (l : List (Nat × Byte)) : State := { s with mem := s.mem.writeAll l }

/-- A state with some pixels on, given as `(x, y)`. -/
def withPixels (s : State) (l : List (Fin 64 × Fin 32)) : State :=
  l.foldl (fun s p => { s with fb := Framebuffer.flip s.fb p.1 p.2 }) s

/-- The reset state with `SP` set and every stack entry `0x206`. -/
def stacked (sp : Byte) : State := { State.reset with sp := sp, stack := Vector.replicate 16 0x0206#16 }

/-- The same with a word at `0x200`. -/
def stackedWord (sp : Byte) (w : Nat) : State := (stacked sp).placeWord 16 w

/-- The reset state with `I` set. -/
def pointing (i : Word) : State := { State.reset with i := i }

/-- A part of the next state, if there is one. -/
def after {α : Type} (o : Result) (f : State → α) : Option α :=
  match o with
  | .next t => some (f t)
  | .fault _ => none
  | .refused _ => none

/-- The fault, if there is one. -/
def faultOf (o : Result) : Option Fault :=
  match o with
  | .next _ => none
  | .fault f => some f
  | .refused _ => none

/-- The columns that are on in one row. -/
def rowOn (s : State) (y : Fin 32) : List Nat := ((List.finRange 64).filter (fun x => s.pixel x y)).map Fin.val

/-! ## WellFormed (40_flow.md R120) -/

theorem test_illformed_sys_cls : (Instr.sys 0x0E0#12).wellFormed = false := by decide

theorem test_illformed_sys_ret : (Instr.sys 0x0EE#12).wellFormed = false := by decide

theorem test_wellformed_sys : (Instr.sys 0x0E1#12).wellFormed = true := by decide

/-! ## Decoding: words written out from the map of 30_encoding.md R96, family by family -/

theorem test_decode_family_0 :
    decodeWord 0b0000000011100000#16 = some .cls ∧ decodeWord 0b0000000011101110#16 = some .ret ∧
    decodeWord 0b0000000100100011#16 = some (.sys 0x123#12) ∧ decodeWord 0x0000#16 = some (.sys 0x000#12) := by decide

theorem test_decode_families_1_2_A_B :
    decodeWord 0b0001001000000100#16 = some (.jp 0x204#12) ∧ decodeWord 0b0010001100000000#16 = some (.call 0x300#12) ∧
    decodeWord 0b1010001000000000#16 = some (.ldI 0x200#12) ∧ decodeWord 0b1011111111111110#16 = some (.jpV0 0xFFE#12) := by
  decide

theorem test_decode_immediates :
    decodeWord 0b0011000100101010#16 = some (.seImm 1#4 0x2A#8) ∧
    decodeWord 0b0100001010000001#16 = some (.sneImm 2#4 0x81#8) ∧
    decodeWord 0b0110101001010101#16 = some (.ldImm 0xA#4 0x55#8) ∧
    decodeWord 0b0111000111111111#16 = some (.addImm 1#4 0xFF#8) ∧
    decodeWord 0b1100111100001111#16 = some (.rnd 0xF#4 0x0F#8) := by decide

theorem test_decode_register_skips :
    decodeWord 0b0101001000110000#16 = some (.seReg 2#4 3#4) ∧ decodeWord 0b1001001000110000#16 = some (.sneReg 2#4 3#4) ∧
    decodeWord 0b0101001000110010#16 = none ∧ decodeWord 0b1001001000110001#16 = none := by decide

theorem test_decode_family_8 :
    decodeWord 0b1000000100100000#16 = some (.ldReg 1#4 2#4) ∧ decodeWord 0b1000000100100001#16 = some (.orReg 1#4 2#4) ∧
    decodeWord 0b1000000100100010#16 = some (.andReg 1#4 2#4) ∧ decodeWord 0b1000000100100011#16 = some (.xorReg 1#4 2#4) ∧
    decodeWord 0b1000000100100100#16 = some (.addReg 1#4 2#4) ∧ decodeWord 0b1000000100100101#16 = some (.sub 1#4 2#4) ∧
    decodeWord 0b1000000100100110#16 = some (.shr 1#4 2#4) ∧ decodeWord 0b1000000100100111#16 = some (.subn 1#4 2#4) ∧
    decodeWord 0b1000000100101110#16 = some (.shl 1#4 2#4) ∧ decodeWord 0b1000000100101111#16 = none := by decide

theorem test_decode_families_D_E :
    decodeWord 0b1101000000000101#16 = some (.drw 0#4 0#4 5#4) ∧ decodeWord 0b1101001101111111#16 = some (.drw 3#4 7#4 15#4) ∧
    decodeWord 0b1110010110011110#16 = some (.skp 5#4) ∧ decodeWord 0b1110010110100001#16 = some (.sknp 5#4) ∧
    decodeWord 0b1110010110100000#16 = none := by decide

theorem test_decode_family_F :
    decodeWord 0b1111001100000111#16 = some (.ldVxDt 3#4) ∧ decodeWord 0b1111001100001010#16 = some (.ldVxK 3#4) ∧
    decodeWord 0b1111001100010101#16 = some (.ldDtVx 3#4) ∧ decodeWord 0b1111001100011000#16 = some (.ldStVx 3#4) ∧
    decodeWord 0b1111001100011110#16 = some (.addI 3#4) ∧ decodeWord 0b1111001100101001#16 = some (.ldF 3#4) ∧
    decodeWord 0b1111001100110011#16 = some (.ldB 3#4) ∧ decodeWord 0b1111001101010101#16 = some (.ldMemVx 3#4) ∧
    decodeWord 0b1111001101100101#16 = some (.ldVxMem 3#4) ∧ decodeWord 0xFFFF#16 = none := by decide

/-- High byte at `PC`, low byte at `PC + 1` (20_memory.md R69). -/
theorem test_fetch_big_endian : wordAtPc (withBytes State.reset [(0x200, 0x12), (0x201, 0x04)]) = 0x1204#16 := by decide

/-! ## Control flow (2.1) -/

/-- F31, F33. -/
theorem test_sys : faultOf (step (word 0x200 0x0123)) = some (.unknownOpcode 0x0123 0x200) ∧
    after (stepUnder { Config.hardware with sysPolicy := .nop } (word 0x200 0x0123)) (·.pc) = some 0x202 := by decide

/-- F9: the popped entry is not cleared. -/
theorem test_ret : after (step ({ stacked 1 with pc := 0x20C }.placeWord 16 0x00EE)) (fun t => (t.pc, t.sp, t.stack[0])) =
    some (0x206, 0, 0x206) := by decide

/-- F8. -/
theorem test_ret_underflow : faultOf (step (word 0x200 0x00EE)) = some (.stackUnderflow 0x00EE 0x200) := by decide

/-- F3: then the font bytes are fetched. -/
theorem test_jp : after (step (word 0x200 0x1000)) (fun t => (t.pc, faultOf (step t))) =
    some (0x000, some (.unknownOpcode 0xF090 0x000)) := by decide

/-- F2. -/
theorem test_jp_odd : faultOf (step (word 0x200 0x1205)) = some (.misalignedPC 0x205 0x1205 0x200) := by decide

/-- F4, F5. -/
theorem test_call : after (step (word 0x204 0x220A)) (fun t => (t.stack[0], t.sp, t.pc)) = some (0x206, 1, 0x20A) ∧
    after (step (word 0xFFE 0x2300)) (fun t => (t.stack[0], t.sp, t.pc)) = some (0x000, 1, 0x300) := by decide

/-- F6, F7. -/
theorem test_call_full : faultOf (step (stackedWord 16 0x2300)) = some (.stackOverflow 0x2300 0x200) ∧
    faultOf (step (stackedWord 16 0x2301)) = some (.misalignedPC 0x301 0x2301 0x200) := by decide

/-- F13, F14. -/
theorem test_se_imm : after (step (word 0xFFE 0x3000)) (·.pc) = some 0x002 ∧
    after (step (word 0xFFE 0x3001)) (·.pc) = some 0x000 := by decide

/-- F16, F17. -/
theorem test_sne_imm : after (step (withRegs (word 0x200 0x4005) [(0, 0x05)])) (·.pc) = some 0x202 ∧
    after (step (withRegs (word 0x200 0x4006) [(0, 0x05)])) (·.pc) = some 0x204 := by decide

/-- F18, F19. -/
theorem test_se_reg : after (step (withRegs (word 0x200 0x5230) [(2, 1), (3, 2)])) (·.pc) = some 0x202 ∧
    after (step (withRegs (word 0x200 0x5330) [(3, 9)])) (·.pc) = some 0x204 := by decide

/-- F20, F21. -/
theorem test_sne_reg : after (step (withRegs (word 0x200 0x9230) [(2, 1), (3, 2)])) (·.pc) = some 0x204 ∧
    after (step (withRegs (word 0x200 0x9230) [(2, 1), (3, 1)])) (·.pc) = some 0x202 := by decide

/-- F26, F27. -/
theorem test_jp_v0 : after (step (withRegs (word 0x200 0xBFFF) [(0, 0xFF)])) (·.pc) = some 0x0FE ∧
    faultOf (step (withRegs (word 0x200 0xB300) [(0, 0x01)])) = some (.misalignedPC 0x301 0xB300 0x200) := by decide

/-- F29. -/
theorem test_jp_vx : after (stepUnder { Config.hardware with jumpOffsetReg := .vx }
    (withRegs (word 0x200 0xB300) [(0, 0x04), (3, 0x10)])) (·.pc) = some 0x310 := by decide

/-! ## Register load, arithmetic, logic, shift, random (2.2) -/

/-- A1, F15. -/
theorem test_ld_imm : after (step (word 0x200 0x600A)) (·.reg 0) = some 0x0A ∧
    after (step (word 0xFFE 0x6A55)) (fun t => (t.reg 0xA, t.pc)) = some (0x55, 0x000) := by decide

/-- A4, A5. -/
theorem test_add_imm :
    after (step (withRegs (word 0x200 0x7101) [(1, 0xFF), (15, 0x55)])) (fun t => (t.reg 1, t.reg 15)) = some (0x00, 0x55) ∧
    after (step (withRegs (word 0x200 0x7F01) [(15, 0xFF)])) (·.reg 15) = some 0x00 := by decide

/-- A6. -/
theorem test_ld_reg : after (step (withRegs (word 0x200 0x8120) [(2, 0x33)])) (fun t => (t.reg 1, t.reg 2)) =
    some (0x33, 0x33) := by decide

/-- A7. -/
theorem test_or : after (step (withRegs (word 0x200 0x8011) [(0, 0xF0), (1, 0x0F), (15, 0x55)]))
    (fun t => (t.reg 0, t.reg 15)) = some (0xFF, 0x55) := by decide

/-- A8. -/
theorem test_and : after (step (withRegs (word 0x200 0x8012) [(0, 0xF3), (1, 0x3F), (15, 0x55)]))
    (fun t => (t.reg 0, t.reg 15)) = some (0x33, 0x55) := by decide

/-- A9. -/
theorem test_xor : after (step (withRegs (word 0x200 0x8013) [(0, 0xFF), (1, 0x0F), (15, 0x55)]))
    (fun t => (t.reg 0, t.reg 15)) = some (0xF0, 0x55) := by decide

/-- A11, A13. -/
theorem test_add_reg :
    after (step (withRegs (word 0x200 0x8014) [(0, 0xFF), (1, 0x01)])) (fun t => (t.reg 0, t.reg 15)) = some (0x00, 0x01) ∧
    after (step (withRegs (word 0x200 0x8014) [(0, 0xFF), (1, 0x00)])) (fun t => (t.reg 0, t.reg 15)) = some (0xFF, 0x00) := by
  decide

/-- A16, A17: `VF` as destination and as source. -/
theorem test_add_reg_vf : after (step (withRegs (word 0x200 0x8F04) [(15, 0x10), (0, 0x20)])) (·.reg 15) = some 0x00 ∧
    after (step (withRegs (word 0x200 0x80F4) [(0, 0xFF), (15, 0x01)])) (fun t => (t.reg 0, t.reg 15)) = some (0x00, 0x01) := by
  decide

/-- A20, A21. -/
theorem test_sub :
    after (step (withRegs (word 0x200 0x8015) [(0, 0x05), (1, 0x0A)])) (fun t => (t.reg 0, t.reg 15)) = some (0xFB, 0x00) ∧
    after (step (withRegs (word 0x200 0x8015) [(0, 0x07), (1, 0x07)])) (fun t => (t.reg 0, t.reg 15)) = some (0x00, 0x01) := by
  decide

/-- A24, A25. -/
theorem test_sub_vf : after (step (withRegs (word 0x200 0x8F05) [(15, 0x03), (0, 0x05)])) (·.reg 15) = some 0x00 ∧
    after (step (withRegs (word 0x200 0x80F5) [(15, 0x01)])) (fun t => (t.reg 0, t.reg 15)) = some (0xFF, 0x00) := by decide

/-- A26, A32. -/
theorem test_shr :
    after (step (withRegs (word 0x200 0x8016) [(0, 0xAA), (1, 0x05)])) (fun t => (t.reg 0, t.reg 1, t.reg 15)) =
      some (0x02, 0x05, 0x01) ∧
    after (step (withRegs (word 0x200 0x8F16) [(1, 0x02), (15, 0x01)])) (·.reg 15) = some 0x00 := by decide

/-- A27. -/
theorem test_shr_vx : after (stepUnder { Config.hardware with shiftSrc := .vx }
    (withRegs (word 0x200 0x8016) [(0, 0xAA), (1, 0x05)])) (fun t => (t.reg 0, t.reg 1, t.reg 15)) =
    some (0x55, 0x05, 0x00) := by decide

/-- A35, A36. -/
theorem test_subn :
    after (step (withRegs (word 0x200 0x8017) [(0, 0x05), (1, 0x0A)])) (fun t => (t.reg 0, t.reg 15)) = some (0x05, 0x01) ∧
    after (step (withRegs (word 0x200 0x8017) [(0, 0x0A), (1, 0x05)])) (fun t => (t.reg 0, t.reg 15)) = some (0xFB, 0x00) := by
  decide

/-- A38, A39. -/
theorem test_shl :
    after (step (withRegs (word 0x200 0x801E) [(1, 0x81)])) (fun t => (t.reg 0, t.reg 1, t.reg 15)) = some (0x02, 0x81, 0x01) ∧
    after (step (withRegs (word 0x200 0x801E) [(1, 0x40)])) (fun t => (t.reg 0, t.reg 15)) = some (0x80, 0x00) := by decide

/-- A41. -/
theorem test_shl_vx : after (stepUnder { Config.hardware with shiftSrc := .vx }
    (withRegs (word 0x200 0x801E) [(0, 0x81), (1, 0x40)])) (fun t => (t.reg 0, t.reg 15)) = some (0x02, 0x01) := by decide

/-- A43: whatever the byte is. -/
theorem test_rnd_masked_to_zero : ∃ t, step (word 0x200 0xC000) = .next t ∧ t.reg 0 = 0x00#8 ∧ t.pc = 0x202#16 :=
  ⟨_, rfl, BitVec.and_zero, rfl⟩

/-- A45: the byte drawn first, under its mask, goes to `VF`. -/
theorem test_rnd_vf : ∃ t, step (word 0x200 0xCF0F) = .next t ∧ t.reg 15 = Config.rnd (word 0x200 0xCF0F).rndCount &&& 0x0F#8 := ⟨_, rfl, rfl⟩

/-! ## Index register, BCD, block moves (2.3) -/

/-- M2. -/
theorem test_ld_i : after (step (word 0x200 0xAFFF)) (·.i) = some 0x0FFF := by decide

/-- M3, M4. -/
theorem test_add_i : after (step (withRegs { word 0x200 0xF01E with i := 0x0FFF } [(0, 0x02)])) (·.i) = some 0x1001 ∧
    after (step (withRegs { word 0x200 0xF01E with i := 0xFFFF } [(0, 0x01), (15, 0x55)])) (fun t => (t.i, t.reg 15)) =
      some (0x0000, 0x55) := by decide

/-- M7, M10. -/
theorem test_ld_f : after (step (withRegs (word 0x200 0xF029) [(0, 0x0A)])) (·.i) = some 0x0032 ∧
    after (step (withRegs (word 0x200 0xF029) [(0, 0xFF)])) (·.i) = some 0x004B := by decide

/-- M14, M20. -/
theorem test_bcd : after (step (withRegs { word 0x200 0xF033 with i := 0x0FFD } [(0, 0xEA)]))
    (fun t => (t.mem.read 0xFFD, t.mem.read 0xFFE, t.mem.read 0xFFF, t.i)) = some (0x02, 0x03, 0x04, 0x0FFD) := by decide

/-- M17, M21. -/
theorem test_bcd_protected :
    faultOf (step (withRegs { word 0x200 0xF033 with i := 0x01FE } [(0, 0xEA)])) = some (.protectedWrite 0x1FE 0xF033 0x200) ∧
    faultOf (step (withRegs { word 0x200 0xF033 with i := 0x0FFE } [(0, 0xEA)])) =
      some (.protectedWrite 0x000 0xF033 0x200) := by decide

/-- M23. -/
theorem test_dump : after (step (withRegs { word 0x200 0xF355 with i := 0x0400 }
    [(0, 0x11), (1, 0x22), (2, 0x33), (3, 0x44), (4, 0x55)]))
    (fun t => ([0x400, 0x401, 0x402, 0x403, 0x404].map t.mem.read, t.i)) =
    some ([0x11, 0x22, 0x33, 0x44, 0x00], 0x0400) := by decide

/-- M26. -/
theorem test_dump_protected : faultOf (step { word 0x200 0xFF55 with i := 0x0FF8 }) =
    some (.protectedWrite 0x000 0xFF55 0x200) := by decide

/-- M28. -/
theorem test_load : after (step (withBytes { word 0x200 0xF365 with i := 0x0400 }
    [(0x400, 0x11), (0x401, 0x22), (0x402, 0x33), (0x403, 0x44), (0x404, 0x55)]))
    (fun t => ([0, 1, 2, 3, 4].map t.reg, t.i)) = some ([0x11, 0x22, 0x33, 0x44, 0x00], 0x0400) := by decide

/-- M30: past `0xFFF` into the font. -/
theorem test_load_wraps : after (step (withBytes { word 0x200 0xF365 with i := 0x0FFE } [(0xFFE, 0xAB), (0xFFF, 0xCD)]))
    (fun t => [0, 1, 2, 3].map t.reg) = some [0xAB, 0xCD, 0xF0, 0x90] := by decide

/-! ## Display (2.4) -/

/-- G13v. -/
theorem test_cls : after (step (withRegs (withPixels (word 0x200 0x00E0) [(0, 0), (63, 31)]) [(15, 0x77)]))
    (fun t => (rowOn t 0, rowOn t 31, t.reg 15)) = some ([], [], 0x77) := by decide

/-- G2v: the glyph of 0 wrapped on both axes. -/
theorem test_drw_wraps : after (step (withRegs (word 0x200 0xD015) [(0, 0x3E), (1, 0x1E), (15, 0x01)]))
    (fun t => ([30, 31, 0, 1, 2, 3].map (rowOn t), t.reg 15)) =
    some ([[0, 1, 62, 63], [1, 62], [1, 62], [1, 62], [0, 1, 62, 63], []], 0x00) := by decide +kernel

/-- G11v: collision. -/
theorem test_drw_collides : after (step (withBytes (withPixels { word 0x200 0xD011 with i := 0x0300 } [(0, 0), (1, 0)])
    [(0x300, 0x80)])) (fun t => (rowOn t 0, t.reg 15)) = some ([1], 0x01) := by decide

/-! ## Keys and timers (2.5) -/

/-- K4, K3. -/
theorem test_skp : after (step (withRegs ((word 0x200 0xE09E).setPressed 5 true) [(0, 0x15)])) (·.pc) = some 0x204 ∧
    after (step (withRegs ((word 0x200 0xE09E).setPressed 6 true) [(0, 0x05)])) (·.pc) = some 0x202 := by decide

/-- K5, K7. -/
theorem test_sknp : after (step (withRegs (word 0x200 0xE0A1) [(0, 0x05)])) (·.pc) = some 0x204 ∧
    after (step (withRegs ((word 0x200 0xE0A1).setPressed 15 true) [(0, 0xFF)])) (·.pc) = some 0x202 := by decide

/-- K8. -/
theorem test_key_wait : after (step (withRegs (word 0x210 0xF30A) [(3, 0x99)])) (fun t => (t.pc, t.reg 3)) =
    some (0x210, 0x99) ∧ (word 0x210 0xF30A).pending = true := by decide

/-- K10. -/
theorem test_key_lowest : after (step (((word 0x200 0xF30A).setPressed 9 true).setPressed 3 true))
    (fun t => (t.reg 3, t.pc)) = some (0x03, 0x202) := by decide

/-- T1. -/
theorem test_ld_vx_dt : after (step { word 0x200 0xF107 with dt := 0x2A }) (fun t => (t.reg 1, t.dt)) = some (0x2A, 0x2A) := by
  decide

/-- T2. -/
theorem test_ld_dt_vx : after (step (withRegs (word 0x200 0xF015) [(0, 0x3C)])) (·.dt) = some 0x3C := by decide

/-- T4. -/
theorem test_ld_st_vx : after (step (withRegs (word 0x200 0xF018) [(0, 0x02)]))
    (fun t => (t.st, t.tone, t.tick.tick.st, t.tick.tick.tone)) = some (0x02, true, 0x00, false) := by decide

/-- S4: the third tick. -/
theorem test_tick : ({ State.reset with dt := 0x03, st := 0x00 }.tick.dt, { State.reset with dt := 0x03, st := 0x00 }.tick.st) =
    (0x02, 0x00) := by decide

/-! ## Hypotheses that are met: encoding and the cycle -/

theorem witness_decode_encode : (Instr.drw 3#4 7#4 15#4).wellFormed = true ∧ (Instr.sys 0xFFF#12).wellFormed = true := by
  decide

theorem witness_decoded_word : decodeWord 0x8AB4#16 = some (.addReg 0xA#4 0xB#4) ∧ decodeWord 0x0FFF#16 = some (.sys 0xFFF#12) := by
  decide

theorem witness_unknown_table : InUnknownTable (wordAtPc (word 0x200 0xFFFF)) ∧ InUnknownTable (wordAtPc (word 0xFFE 0x5001)) ∧
    ¬ InUnknownTable (wordAtPc (word 0x200 0x5000)) := by
  simp only [InUnknownTable]; decide

theorem witness_step_runs : decode [(word 0x200 0x6A55).mem.read ((word 0x200 0x6A55).pc.toNat % 0x1000),
    (word 0x200 0x6A55).mem.read (((word 0x200 0x6A55).pc.toNat + 1) % 0x1000)] = .ok (.ldImm 0xA#4 0x55#8, []) := by rfl

/-- At the block: a step that is not pending, with a report kept, and one that is pending. -/
theorem witness_step_at_the_block :
    (∃ t, (System.mk (some (word 0x200 0x6A55)) (some .loadTooLarge) 0).machine = some (word 0x200 0x6A55) ∧
      step (word 0x200 0x6A55) = .next t ∧ (word 0x200 0x6A55).pending = false) ∧
    step (word 0x210 0xF30A) = .next (word 0x210 0xF30A) ∧ (word 0x210 0xF30A).pending = true :=
  ⟨⟨_, rfl, rfl, by decide⟩, rfl, by decide⟩

theorem witness_unknown_or_sys : decodeWord (wordAtPc (word 0x200 0xFFFF)) = none ∧
    decodeWord (wordAtPc (word 0xFFE 0x0123)) = some (.sys 0x123#12) := by decide

theorem witness_sys : (0x0E1#12 : Addr) ≠ 0x0E0#12 ∧ (0x0E1#12 : Addr) ≠ 0x0EE#12 := by decide

/-! ## Hypotheses that are met: control flow -/

theorem witness_ret : (stacked 0).sp.toNat = 0 ∧ (stacked 1).sp.toNat = (0 : Fin 16).val + 1 ∧
    (stacked 16).sp.toNat = (15 : Fin 16).val + 1 := by decide

theorem witness_jp : (0x000#12 : Addr).toNat % 2 = 0 ∧ (0xFFE#12 : Addr).toNat % 2 = 0 ∧
    (0x001#12 : Addr).toNat % 2 = 1 ∧ (0xFFF#12 : Addr).toNat % 2 = 1 := by decide

theorem witness_call : ((0xFFE#12 : Addr).toNat % 2 = 0 ∧ (stacked 0).sp.toNat < 16 ∧ (stacked 15).sp.toNat < 16) ∧
    (0xFFF#12 : Addr).toNat % 2 = 1 ∧ (stacked 16).sp.toNat = 16 := by decide

theorem witness_stack_pointer_out_of_range : 16 < (stacked 17).sp.toNat ∧ 16 < (stacked 255).sp.toNat ∧
    (0x300#12 : Addr).toNat % 2 = 0 := by decide

theorem witness_jp_v0 :
    ((0xFFE#12 : Addr).toNat + ((withRegs State.reset [(0, 0x04)]).reg 0x0#4).toNat) % 2 = 0 ∧
    ((0x300#12 : Addr).toNat + ((withRegs State.reset [(0, 0x01)]).reg 0x0#4).toNat) % 2 = 1 ∧
    (0xF#4 : Reg).toNat = (0xFFE#12 : Addr).toNat / 0x100 ∧ (0x0#4 : Reg).toNat = (0x0FF#12 : Addr).toNat / 0x100 ∧
    ((0xFFE#12 : Addr).toNat + (State.reset.reg 0xF#4).toNat) % 2 = 0 ∧
    ((0x0FF#12 : Addr).toNat + (State.reset.reg 0x0#4).toNat) % 2 = 1 := by decide

theorem witness_spin : (0x200#12 : Addr).toNat % 2 = 0 ∧ (word 0x200 0x1200).pc = (0x200#12 : Addr).setWidth 16 ∧
    decodeWord (wordAtPc (word 0x200 0x1200)) = some (.jp 0x200#12) := by decide

theorem witness_ret_after_call : ∃ t u, exec (.call 0x300#12) (stacked 15) = .next t ∧ SameStack t u ∧ u.pc ≠ t.pc :=
  ⟨_, { State.reset with sp := 16, stack := (Vector.replicate 16 0x0206#16).set 15 0x0202#16 }, rfl, ⟨rfl, rfl⟩, by decide⟩

/-! ## Hypotheses that are met: stores and loads -/

theorem witness_rnd : (0x0F#8 : Byte).getLsbD 7 = false ∧ (0x0F#8 : Byte).getLsbD 8 = false := by decide

/-- The clauses of LD B at their boundaries: all three stored, and the first, the second and the third protected. -/
theorem witness_bcd :
    ((pointing 0x200).mem.wf = true ∧ (∀ k, k < 3 → 0x200 ≤ ((pointing 0x200).i.toNat + k) % 0x1000)) ∧
    (∀ k, k < 3 → 0x200 ≤ ((pointing 0xFFD).i.toNat + k) % 0x1000) ∧
    ((pointing 0x1FF).i.toNat + 0) % 0x1000 < 0x200 ∧
    (((pointing 0xFFF).i.toNat + 1) % 0x1000 < 0x200 ∧ ∀ j, j < 1 → 0x200 ≤ ((pointing 0xFFF).i.toNat + j) % 0x1000) ∧
    ((pointing 0xFFE).i.toNat + 2) % 0x1000 < 0x200 ∧
    ∀ j, j < 2 → 0x200 ≤ ((pointing 0xFFE).i.toNat + j) % 0x1000 := by decide

/-- The clauses of LD [I],Vx at their boundaries. -/
theorem witness_dump :
    ((pointing 0xFF0).mem.wf = true ∧
      ∀ k, k ≤ (15#4 : Reg).toNat → 0x200 ≤ ((pointing 0xFF0).i.toNat + k) % 0x1000) ∧
    (∀ k, k ≤ (0#4 : Reg).toNat → 0x200 ≤ ((pointing 0x1200).i.toNat + k) % 0x1000) ∧
    (0 ≤ (15#4 : Reg).toNat ∧ ((pointing 0x1FF).i.toNat + 0) % 0x1000 < 0x200) ∧
    15 ≤ (15#4 : Reg).toNat ∧ ((pointing 0xFF1).i.toNat + 15) % 0x1000 < 0x200 ∧
    ∀ j, j < 15 → 0x200 ≤ ((pointing 0xFF1).i.toNat + j) % 0x1000 := by decide

theorem witness_dump_then_load : ∃ t u w, (pointing 0x400).mem.wf = true ∧ exec (.ldMemVx 3#4) (pointing 0x400) = .next t ∧
    SameMemory t u ∧ SameIndex t u ∧ u.reg 0x5#4 ≠ t.reg 0x5#4 ∧ exec (.ldVxMem 3#4) u = .next w :=
  ⟨_, withRegs (pointing 0x400) [(5, 0x77)], _, rfl, rfl, fun _ => rfl, rfl, by decide, rfl⟩

theorem witness_stored_bytes_fetched : ∃ t, (withRegs (pointing 0x400) [(0, 0x12), (1, 0x04)]).mem.wf = true ∧
    1 ≤ (1#4 : Reg).toNat ∧ exec (.ldMemVx 1#4) (withRegs (pointing 0x400) [(0, 0x12), (1, 0x04)]) = .next t :=
  ⟨_, rfl, by decide, rfl⟩

/-! ## Hypotheses that are met: display -/

/-- Fifteen rows, a covered pixel at the wrap of both axes, and a pixel that is not covered. -/
theorem witness_draw_sprite : (List.replicate 15 (0x80#8 : Byte)).length ≤ 15 ∧
    Covers 0xFF#8 0xFF#8 (List.replicate 15 0x80#8) 63 13 ∧ ¬ Covers 0x00#8 0x00#8 [0x80#8] 1 0 := by
  refine ⟨by decide, ⟨14, 0, by decide, by decide, by decide, by decide, by decide⟩, ?_⟩
  rintro ⟨r, c, h, h8, hb, hx, -⟩
  have hr : r = 0 := by simpa using h
  have hc : c = 1 := by
    have h1 : (0 + c) % 64 = 1 := hx
    omega
  subst hr hc
  simp at hb

/-- A draw that collides and one that does not. -/
theorem witness_draw_reports :
    (∃ t, exec (.drw 0 1 5) (withPixels State.reset [(0, 0)]) = .next t ∧
      (withPixels State.reset [(0, 0)]).pixel 0 0 = true ∧ t.pixel 0 0 = false) ∧
    ∃ t, exec (.drw 0 1 0) State.reset = .next t ∧ ∀ px py, ¬ (State.reset.pixel px py = true ∧ t.pixel px py = false) :=
  ⟨⟨_, rfl, by decide +kernel⟩, _, rfl, fun px py h => by simp [State.pixel, Framebuffer.pixel, State.reset] at h⟩

/-! ## Hypotheses that are met: keys -/

theorem witness_skips_on_a_key : (0x5#4 : Nibble).toNat = ((withRegs State.reset [(0, 0x15)]).reg 0).toNat % 16 ∧
    (0xF#4 : Nibble).toNat = ((withRegs State.reset [(0, 0xFF)]).reg 0).toNat % 16 := by decide

theorem witness_key_wait : (∀ k, (word 0x210 0xF30A).key k = false) ∧
    decodeWord (wordAtPc (word 0x210 0xF30A)) = some (.ldVxK 3#4) ∧
    ((word 0x210 0xF30A).setPressed 0 true).key 0 = true ∧
    (((word 0x210 0xF30A).setPressed 15 true).key 15 = true ∧
      ∀ j : Nibble, j.toNat < (15#4 : Nibble).toNat → ((word 0x210 0xF30A).setPressed 15 true).key j = false) ∧
    (System.mk (some (word 0x210 0xF30A)) none 0).machine = some (word 0x210 0xF30A) := by decide

theorem witness_only_a_key_press : (word 0x210 0xF30A).pending = true ∧ (word 0x210 0x6A55).pending = false := by decide

theorem witness_events_of_a_block : (System.mk (some State.reset) (some .loadTooLarge) 0).machine = some State.reset := by rfl

theorem witness_commute : ∃ t, exec (.addImm 1#4 0xFF#8) State.reset = .next t ∧ ¬ UsesTimer (.addImm 1#4 0xFF#8) ∧
    ¬ ReadsKeys (.addImm 1#4 0xFF#8) := ⟨_, rfl, by simp [UsesTimer], by simp [ReadsKeys]⟩

/-! ## Hypotheses that are met: reset and invariants -/

/-- An image that fits exactly and one that is a byte too long. -/
theorem witness_reset : (List.replicate 3584 (0x00#8 : Byte)).length ≤ 3584 ∧
    3584 < (List.replicate 3585 (0x00#8 : Byte)).length := by
  rw [List.length_replicate, List.length_replicate]
  decide

/-- A block with a state and a kept report, whose draws are those of its state. -/
theorem witness_reset_at_the_block :
    (System.mk (some { State.reset with rndCount := 3 }) (some (.stackUnderflow 0x00EE 0x200)) 0).drawn = 3 := by rfl

theorem witness_failed_reset : 3584 < (List.replicate 3585 (0x00#8 : Byte)).length ∧
    (∀ r, Event.tick = .reset r → 3584 < r.length) ∧
    (∀ r, Event.reset (List.replicate 3585 0x00#8) = .reset r → 3584 < r.length) ∧ ([] : List Byte).length ≤ 3584 := by
  have h : 3584 < (List.replicate 3585 (0x00#8 : Byte)).length := by rw [List.length_replicate]; decide
  refine And.intro h (And.intro ?_ (And.intro ?_ (by decide)))
  · intro r e
    cases e
  · intro r e
    rw [← Event.reset.inj e]
    exact h

/-- A word stored at `0x200` or above leaves the reset state's invariants. -/
theorem word_inv (op : Nat) : (State.reset.placeWord 16 op).Inv := by
  have h : ∀ (b c : Byte), ((State.reset.mem.write 0x200 b).write 0x201 c).wf = true := fun b c =>
    Memory.wf_write (by decide) (Memory.wf_write (by decide) Memory.wf_empty)
  refine ⟨(by decide : 0x200 ≤ 0xFFE ∧ 0x200 % 2 = 0), ⟨(by decide : 0 ≤ 16), fun j hj => absurd hj (Nat.not_lt_zero _)⟩, fun a ha => ?_, h _ _⟩
  have ha' : a < 0x200 := ha
  exact (Memory.read_write_other _ _ (by change a ≠ 0x201; omega)).trans
    (Memory.read_write_other _ _ (by change a ≠ 0x200; omega))

theorem witness_step_keeps_invariants : ∃ t, (State.reset.placeWord 16 0x2300).Inv ∧
    step (State.reset.placeWord 16 0x2300) = .next t := ⟨_, word_inv _, rfl⟩

/-- Each of the four events at a state that meets the invariants. -/
theorem witness_event_keeps_invariants : (State.reset.placeWord 16 0x2300).Inv ∧
    (∃ t, (State.reset.placeWord 16 0x2300).event .step = .next t) ∧
    (∃ t, (State.reset.placeWord 16 0x2300).event .tick = .next t) ∧
    (∃ t, (State.reset.placeWord 16 0x2300).event (.setPressed 7 true) = .next t) ∧
    ∃ t, (State.reset.placeWord 16 0x2300).event (.reset [0x12, 0x00]) = .next t :=
  ⟨word_inv _, ⟨_, rfl⟩, ⟨_, rfl⟩, ⟨_, rfl⟩, _, rfl⟩

theorem witness_any_events : ((System.initial.run [.reset [0xF3, 0x0A], .step, .tick, .setPressed 7 true, .step]).machine).map
    (fun s => (s.pc, s.reg 3)) = some (0x202, 0x07) := by decide +kernel

theorem witness_canonical : Memory.wf ⟨[(0x200, 0x12)]⟩ = true ∧ Memory.wf ((Memory.mk []).write 0x200 0x12) = true ∧
    ∀ a, (Memory.mk [(0x200, 0x12)]).read a = ((Memory.mk []).write 0x200 0x12).read a := ⟨by decide, by decide, fun _ => rfl⟩

/-! ## Hypotheses that are met: faults -/

/-- A fault of each kind a step raises. -/
theorem witness_faults : faultOf (step (word 0x200 0xFFFF)) = some (.unknownOpcode 0xFFFF 0x200) ∧
    faultOf (step (word 0x200 0x1FFF)) = some (.misalignedPC 0xFFF 0x1FFF 0x200) ∧
    faultOf (step (stackedWord 16 0x2FFE)) = some (.stackOverflow 0x2FFE 0x200) ∧
    faultOf (step (stackedWord 0 0x00EE)) = some (.stackUnderflow 0x00EE 0x200) ∧
    faultOf (step ((pointing 0x1FF).placeWord 16 0xF055)) = some (.protectedWrite 0x1FF 0xF055 0x200) := by decide

theorem witness_no_step_is_refused : (State.reset.placeWord 16 0x00EE).Inv := word_inv _

theorem witness_fault_recurs : (System.mk (some (word 0x200 0xFFFF)) none 0).machine = some (word 0x200 0xFFFF) ∧
    step (word 0x200 0xFFFF) = .fault (.unknownOpcode 0xFFFF 0x200) ∧
    ∀ e ∈ [Event.tick, Event.setPressed 7 true], Outside e := by
  refine ⟨rfl, rfl, fun e he => ?_⟩
  rcases List.mem_cons.mp he with rfl | he
  · exact .inl rfl
  · exact .inr ⟨7, true, by simpa using he⟩

/-- Each clause of the checked policy at its boundary. -/
theorem witness_check_policy :
    ({ State.reset with pc := 0xFFF }.pc.toNat > 0xFFE) ∧
    ((pointing 0xFFF).i.toNat + (2#4 : Nibble).toNat > 0x1000 ∧ 0 < (2#4 : Nibble).toNat) ∧
    ((pointing 0x1000).i.toNat + (0#4 : Reg).toNat > 0xFFF) ∧ ((pointing 0xFF1).i.toNat + (15#4 : Reg).toNat > 0xFFF) ∧
    ((pointing 0xFFE).i.toNat + 2 > 0xFFF) ∧
    (0xFFF#12 : Addr).toNat + ((withRegs State.reset [(0, 0x01)]).reg 0x0#4).toNat > 0xFFF := by decide

/-- The clauses of the checked policy about `PC`: the key of SKP and SKNP, a CALL with room for one more and with none
before, an instruction that only advances, and the range of `I` at both its ends. -/
theorem witness_check_policy_pc :
    (0xF#4 : Nibble).toNat = ((withRegs State.reset [(0, 0xFF)]).reg 0).toNat % 16 ∧
    ((0xFFE#12 : Addr).toNat % 2 = 0 ∧ (stacked 0).sp.toNat = (0 : Fin 16).val ∧ (stacked 15).sp.toNat = (15 : Fin 16).val) ∧
    (¬ Transfers (.drw 0 1 15) ∧ ¬ Skips (.drw 0 1 15) ∧ (∀ nnn, Instr.drw 0 1 15 ≠ .sys nnn) ∧
      ∃ t, execUnder { Config.hardware with addrPolicy := .check } (.drw 0 1 15) State.reset = .next t) ∧
    (0x200 ≤ (pointing 0x200).i.toNat ∧ (pointing 0x200).i.toNat + 16 ≤ 0x1000) ∧
    0x200 ≤ (pointing 0xFF0).i.toNat ∧ (pointing 0xFF0).i.toNat + 16 ≤ 0x1000 :=
  ⟨by decide, by decide, ⟨by simp [Transfers], by simp [Skips], by simp, _, rfl⟩, by decide, by decide, by decide⟩

/-- R245: no wrap. A taken skip at `0xFFE` leaves `PC` at `0x1002`, and a step there is out of bounds. -/
theorem test_check_skip :
    after (stepUnder { Config.hardware with addrPolicy := .check } (word 0xFFE 0x3000))
      (fun t => (t.pc, faultOf (stepUnder { Config.hardware with addrPolicy := .check } t))) =
    some (0x1002, some (.outOfBounds 0x1002 none 0x1002)) := by decide

/-! ## Hypotheses that are met: whole-machine rules -/

/-- An advance by two, a skip that is taken, and a key wait. -/
theorem witness_pc_advances :
    (∃ t, exec .cls State.reset = .next t ∧ ¬ Transfers .cls ∧ t.pc = 0x202#16) ∧
    (∃ t, exec (.seImm 0 0) State.reset = .next t ∧ ¬ Transfers (.seImm 0 0) ∧ t.pc = 0x204#16) ∧
    exec (.ldVxK 3) State.reset = .next State.reset ∧ ¬ Transfers (.ldVxK 3) :=
  ⟨⟨_, rfl, by simp [Transfers], by decide⟩, ⟨_, rfl, by simp [Transfers], by decide⟩, rfl, by simp [Transfers]⟩

theorem witness_stores_change_memory : ∃ t, exec (.ldB 0) (withRegs (pointing 0xFFD) [(0, 0xFF)]) = .next t ∧
    t.mem.read 0xFFF ≠ (withRegs (pointing 0xFFD) [(0, 0xFF)]).mem.read 0xFFF := ⟨_, rfl, by decide⟩

/-- `VF` changed by a flag writer, as a destination, and by a block load. -/
theorem witness_flag_changes :
    (∃ t, exec (.sub 0 0) State.reset = .next t ∧ WritesFlag (.sub 0 0) ∧ t.reg 0xF#4 ≠ State.reset.reg 0xF#4) ∧
    (∃ t, exec (.ldImm 0xF 0x02) State.reset = .next t ∧ t.reg 0xF#4 ≠ State.reset.reg 0xF#4) ∧
    ∃ t, exec (.ldVxMem 0xF) State.reset = .next t ∧ t.reg 0xF#4 ≠ State.reset.reg 0xF#4 :=
  ⟨⟨_, rfl, by simp [WritesFlag], by decide⟩, ⟨_, rfl, by decide⟩, _, rfl, by decide⟩

/-- Each element changed by one of its writers. -/
theorem witness_elements_change :
    (∃ t, exec (.ldF 1) (withRegs State.reset [(1, 0x0A)]) = .next t ∧ ¬ SameIndex (withRegs State.reset [(1, 0x0A)]) t) ∧
    (∃ t, exec (.call 0x300) State.reset = .next t ∧ ¬ SameStack State.reset t) ∧
    (∃ t, exec (.ldDtVx 1) (withRegs State.reset [(1, 0x0A)]) = .next t ∧ t.dt ≠ (withRegs State.reset [(1, 0x0A)]).dt) ∧
    (∃ t, exec (.ldStVx 1) (withRegs State.reset [(1, 0x0A)]) = .next t ∧ t.st ≠ (withRegs State.reset [(1, 0x0A)]).st) ∧
    ∃ t, exec .cls (withPixels State.reset [(63, 31)]) = .next t ∧ ¬ SameScreen (withPixels State.reset [(63, 31)]) t :=
  ⟨⟨_, rfl, by simp only [SameIndex]; decide⟩, ⟨_, rfl, by simp only [SameStack]; decide⟩, ⟨_, rfl, by decide⟩,
    ⟨_, rfl, by decide⟩, _, rfl, fun h => absurd (h 63 31) (by decide)⟩

end Sys2Proof.Tests
end

section
/-! SUPPORT. What an instruction that answers a next state can do, said once for all of them: the relation `Effect` and
its lemma `exec_effect`. The statements about what changes, and the invariants, are read off it case by case. -/

namespace Sys2Proof.Machine

/-! ## The meanings that a match decides -/

/-- The bytes an instruction reads at `I` on this hardware (R184). -/
theorem readBytes_at_index (s : State) (n : Nat) : readBytes .mask s.mem s.i.toNat n = .ok (bytesAtI s n) := by
  rw [readBytes_mask, List.range'_eq_map_range, List.map_map]
  rfl

/-- DRW always completes on this hardware (R202). -/
theorem execDrw_eq (x y : Reg) (n : Nibble) (s : State) :
    execDrw x y n s = .next
      ({ s.advance Config.hardware with
          fb := (drawSprite (s.reg x) (s.reg y) (bytesAtI s n.toNat) s.fb).1 }.setReg vf
        (flagByte (drawSprite (s.reg x) (s.reg y) (bytesAtI s n.toNat) s.fb).2)) := by
  simp only [execDrw, hardware_addrPolicy, readBytes_at_index]

/-- LD Vx,[I] always completes on this hardware (R186). -/
theorem execLdVxMem_eq (x : Reg) (s : State) :
    execLdVxMem x s = .next
      { s.advance Config.hardware with v := setRegsFrom s.v 0 (bytesAtI s (x.toNat + 1)) } := by
  simp only [execLdVxMem, hardware_addrPolicy, readBytes_at_index]

/-- JP V0 on this hardware jumps to the masked sum (R131). -/
theorem execJpV0_eq (nnn : Addr) (s : State) :
    execJpV0 nnn s = jumpTo ((nnn.toNat + (s.reg 0x0#4).toNat) % memSize) (.jpV0 nnn) s := rfl

/-- A CALL that answers had an even target and room on the stack (R123). -/
theorem execCall_next {nnn : Addr} {s t : State} (h : execCall nnn s = .next t) :
    nnn.toNat % 2 = 0 ∧ ∃ room : s.sp.toNat < 16,
      t = { s with stack := s.stack.set s.sp.toNat (nextPc .mask s.pc) room, sp := s.sp + 1#8,
                   pc := toWord nnn.toNat } := by
  unfold execCall at h
  split at h
  · rename_i even
    split at h
    · exact absurd h (by simp)
    · rename_i u pushed
      obtain ⟨room, rfl⟩ := State.push_ok pushed
      cases h
      exact ⟨by simpa [isEven] using even, room, rfl⟩
  · exact absurd h (by simp)

/-- A RET with `k + 1` entries on the stack completes at the topmost one (R121). -/
theorem execRet_of_eq {s : State} {k : Nat} (hk : k < 16) (h : s.sp.toNat = k + 1) :
    execRet s = .next { s with sp := s.sp - 1#8, pc := s.stack[k] } := by
  have popped : (s.advance Config.hardware).pop = _ := State.pop_of_eq hk h
  rw [execRet, popped]
  rfl

/-- A RET that answers had an entry on the stack (R121). -/
theorem execRet_next {s t : State} (h : execRet s = .next t) :
    ∃ k, ∃ hk : k < 16, s.sp.toNat = k + 1 ∧ t = { s with sp := s.sp - 1#8, pc := s.stack[k] } := by
  unfold execRet at h
  split at h
  · exact absurd h (by simp)
  · rename_i target u popped
    obtain ⟨hk, live, rfl, rfl⟩ := State.pop_ok popped
    cases h
    refine ⟨s.sp.toNat - 1, hk, ?_, rfl⟩
    have : s.sp.toNat ≠ 0 := fun e => live (BitVec.eq_of_toNat_eq e)
    omega

/-! ## The effect of an instruction -/

/-- How the state after an instruction comes from the state before it. Instructions that change the same elements share
a constructor, which leaves open the value they write and says which instructions it is for. -/
inductive Effect (s : State) : Instr → State → Prop where
  | skip {i : Instr} (cond : Bool) (skips : Skips i) : Effect s i (s.skipIf cond Config.hardware)
  | keyWait (x : Reg) (noKey : s.lowestKey = none) : Effect s (.ldVxK x) s
  | setReg {i : Instr} {x : Reg} (b : Byte) (dest : destination i = some x) :
      Effect s i ((s.advance Config.hardware).setReg x b)
  | random (x : Reg) (nn b : Byte) (draws : Nat) :
      Effect s (.rnd x nn) { (s.advance Config.hardware).setReg x b with rndCount := draws }
  | setFlag {i : Instr} (x : Reg) (b : Byte) (flag : Bool) (writes : WritesFlag i) :
      Effect s i ((s.advance Config.hardware).setRegThenFlag x b flag)
  | loadRegs (x : Reg) :
      Effect s (.ldVxMem x) { s.advance Config.hardware with v := setRegsFrom s.v 0 (bytesAtI s (x.toNat + 1)) }
  | clear : Effect s .cls { s.advance Config.hardware with fb := Framebuffer.clear }
  | draw (x y : Reg) (n : Nibble) (fb : Framebuffer) (flag : Bool) :
      Effect s (.drw x y n) ({ s.advance Config.hardware with fb := fb }.setReg vf (flagByte flag))
  | setIndex {i : Instr} (a : Word) (writes : (∃ nnn, i = .ldI nnn) ∨ (∃ x, i = .addI x) ∨ ∃ x, i = .ldF x) :
      Effect s i { s.advance Config.hardware with i := a }
  | setDelay (x : Reg) (b : Byte) : Effect s (.ldDtVx x) { s.advance Config.hardware with dt := b }
  | setSound (x : Reg) (b : Byte) : Effect s (.ldStVx x) { s.advance Config.hardware with st := b }
  | store {i : Instr} {bytes : List Byte} {mem : Memory} (stores : Stores i)
      (stored : storeBytes .mask s.mem s.i.toNat bytes = .ok mem) :
      Effect s i { s.advance Config.hardware with mem := mem }
  | jump {i : Instr} {target : Nat} (transfers : Transfers i) (even : target % 2 = 0) (inside : target < memSize) :
      Effect s i { s with pc := toWord target }
  | call {nnn : Addr} (even : nnn.toNat % 2 = 0) (room : s.sp.toNat < 16) :
      Effect s (.call nnn)
        { s with stack := s.stack.set s.sp.toNat (nextPc .mask s.pc) room, sp := s.sp + 1#8, pc := toWord nnn.toNat }
  | ret {k : Nat} (hk : k < 16) (live : s.sp.toNat = k + 1) :
      Effect s .ret { s with sp := s.sp - 1#8, pc := s.stack[k] }

theorem jumpTo_effect {target : Nat} {i : Instr} {s t : State} (transfers : Transfers i) (inside : target < memSize)
    (h : jumpTo target i s = .next t) : Effect s i t := by
  obtain ⟨even, rfl⟩ := jumpTo_next h
  exact .jump transfers even inside

theorem storeAtI_effect {bytes : List Byte} {i : Instr} {s t : State} (stores : Stores i)
    (h : storeAtI bytes i s Config.hardware = .next t) : Effect s i t := by
  obtain ⟨mem, stored, rfl⟩ := storeAtI_next h
  exact .store stores stored

/-- LD Vx,K waits, or stores the lowest key down (R222). -/
theorem execLdVxK_effect {x : Reg} {s t : State} (h : execLdVxK x s = .next t) : Effect s (.ldVxK x) t := by
  unfold execLdVxK at h
  split at h <;> cases h
  · exact .keyWait x (by assumption)
  · exact .setReg _ rfl

/-- Every instruction that answers a next state has one of the effects. -/
theorem exec_effect {i : Instr} {s t : State} (h : exec i s = .next t) : Effect s i t := by
  cases i with
  | sys => cases h
  | cls => cases h; exact .clear
  | seImm | sneImm | seReg | sneReg | skp | sknp => cases h; exact .skip _ (by simp [Skips])
  | ldImm | addImm | ldReg | orReg | andReg | xorReg | ldVxDt => cases h; exact .setReg _ rfl
  | addReg | sub | shr | subn | shl => cases h; exact .setFlag _ _ _ (by simp [WritesFlag])
  | rnd => cases h; exact .random _ _ _ _
  | drw x y n =>
    cases (execDrw_eq x y n s).symm.trans h
    exact .draw ..
  | ldVxMem x =>
    cases (execLdVxMem_eq x s).symm.trans h
    exact .loadRegs x
  | ldVxK x => exact execLdVxK_effect h
  | ldI | addI | ldF => cases h; exact .setIndex _ (by simp)
  | ldDtVx => cases h; exact .setDelay _ _
  | ldStVx => cases h; exact .setSound _ _
  | ldB x => exact storeAtI_effect (.inl ⟨x, rfl⟩) h
  | ldMemVx x => exact storeAtI_effect (.inr ⟨x, rfl⟩) h
  | jp nnn => exact jumpTo_effect (by simp [Transfers]) nnn.isLt h
  | jpV0 => exact jumpTo_effect (by simp [Transfers]) (Nat.mod_lt _ (by decide)) h
  | call nnn =>
    obtain ⟨even, room, rfl⟩ := execCall_next h
    exact .call even room
  | ret =>
    obtain ⟨k, hk, live, rfl⟩ := execRet_next h
    exact .ret hk live

end Sys2Proof.Machine
end

section
/-! SUPPORT. The canonical form of the memory is determined by what it reads as, and what a loaded image reads as
(20_memory.md R66). -/

namespace Sys2Proof.Machine

/-! ## The canonical form -/

theorem lookupCell_cons_self (a : Nat) (b : Byte) (l : List Host.Cell) : lookupCell a ((a, b) :: l) = some b := by
  simp [lookupCell]

theorem lookupCell_cons_ne {a q : Nat} (h : a ≠ q) (b : Byte) (l : List Host.Cell) :
    lookupCell q ((a, b) :: l) = lookupCell q l := by
  simp [lookupCell, h]

/-- A canonical list lists no byte that its address reads as anyway. -/
theorem lookupCell_ne_unlisted {a : Nat} : ∀ {l : List Host.Cell} {lo : Nat},
    cellsWf lo l = true → lookupCell a l ≠ some (Memory.unlisted a)
  | [], _, _ => nofun
  | (k, x) :: rest, _, wf => by
    obtain ⟨-, -, hx, wf'⟩ := cellsWf_cons.mp wf
    by_cases hk : k = a
    · subst hk
      simpa [lookupCell_cons_self] using hx
    · rw [lookupCell_cons_ne hk]
      exact lookupCell_ne_unlisted wf'

/-- So what an address reads as says what is listed there. -/
theorem lookupCell_eq_of_getD_eq {a lo lo' : Nat} {l l' : List Host.Cell} (wf : cellsWf lo l = true)
    (wf' : cellsWf lo' l' = true)
    (h : (lookupCell a l).getD (Memory.unlisted a) = (lookupCell a l').getD (Memory.unlisted a)) :
    lookupCell a l = lookupCell a l' := by
  have listed := lookupCell_ne_unlisted (a := a) wf
  have listed' := lookupCell_ne_unlisted (a := a) wf'
  cases hl : lookupCell a l with
  | none =>
    cases hl' : lookupCell a l' with
    | none => rfl
    | some b' =>
      rw [hl, hl'] at h
      exact absurd (hl'.trans (congrArg some h.symm)) listed'
  | some b =>
    cases hl' : lookupCell a l' with
    | none =>
      rw [hl, hl'] at h
      exact absurd (hl.trans (congrArg some h)) listed
    | some b' =>
      rw [hl, hl'] at h
      exact congrArg some h

/-- Two canonical lists that list the same byte at every address begin with the same cell and go on alike. -/
theorem cells_eq_of_lookupCell_eq : ∀ {l l' : List Host.Cell} {lo lo' : Nat},
    cellsWf lo l = true → cellsWf lo' l' = true → (∀ a, lookupCell a l = lookupCell a l') → l = l'
  | [], [], _, _, _, _, _ => rfl
  | [], (k, x) :: rest, _, _, _, _, h => by simpa [lookupCell] using h k
  | (k, x) :: rest, [], _, _, _, _, h => by simpa [lookupCell] using h k
  | (k, x) :: rest, (k', x') :: rest', _, _, wf, wf', h => by
    obtain ⟨-, in_space, listed, wfr⟩ := cellsWf_cons.mp wf
    obtain ⟨-, in_space', listed', wfr'⟩ := cellsWf_cons.mp wf'
    have same : k = k' := by
      rcases Nat.lt_trichotomy k k' with hk | hk | hk
      · have none' : lookupCell k ((k', x') :: rest') = none :=
          lookupCell_below hk (cellsWf_cons.mpr ⟨Nat.le_refl k', in_space', listed', wfr'⟩)
        simpa [lookupCell_cons_self, none'] using h k
      · exact hk
      · have none' : lookupCell k' ((k, x) :: rest) = none :=
          lookupCell_below hk (cellsWf_cons.mpr ⟨Nat.le_refl k, in_space, listed, wfr⟩)
        simpa [lookupCell_cons_self, none'] using h k'
    subst same
    have byte : x = x' := by simpa [lookupCell_cons_self] using h k
    have tail : rest = rest' := cells_eq_of_lookupCell_eq wfr wfr' fun q => by
      by_cases hq : k = q
      · rw [lookupCell_below (by omega) wfr, lookupCell_below (by omega) wfr']
      · simpa [lookupCell_cons_ne hq] using h q
    rw [byte, tail]

/-- Settles O49: canonical memories that read alike list the same byte at every address, so they are the same list. -/
theorem canonicalMemoryIsDeterminedByItsReads : Obligations.CanonicalMemoryIsDeterminedByItsReads := by
  intro m n hm hn h
  have cells : m.cells = n.cells :=
    cells_eq_of_lookupCell_eq hm hn fun a => lookupCell_eq_of_getD_eq hm hn (h a)
  cases m
  exact congrArg Memory.mk cells

/-! ## A loaded image (R66) -/

/-- The cells of an image and the addresses they go to. -/
def imageCells (bytes : List Byte) (base : Nat) : List (Nat × Byte) := (List.range' base bytes.length).zip bytes

theorem mem_imageCells {bytes : List Byte} {base : Nat} {p : Nat × Byte} (h : p ∈ imageCells bytes base) :
    base ≤ p.1 ∧ p.1 < base + bytes.length :=
  List.mem_range'_1.mp (List.of_mem_zip h).1

theorem getElem_mem_imageCells {bytes : List Byte} {base k : Nat} (h : k < bytes.length) :
    (base + k, bytes[k]) ∈ imageCells bytes base :=
  List.mem_iff_getElem.mpr ⟨k, by simpa [imageCells] using h, by simp [imageCells]⟩

theorem nodup_imageCells (bytes : List Byte) (base : Nat) : ((imageCells bytes base).map Prod.fst).Nodup := by
  rw [imageCells, List.map_fst_zip (by simp)]
  exact List.nodup_range'

/-- An image that fits is written. -/
theorem Memory.load_eq_some {m m' : Memory} {bytes : List Byte} {base : Nat} :
    m.load bytes base = some m' ↔ base + bytes.length ≤ memSize ∧ m' = m.writeAll (imageCells bytes base) := by
  unfold Memory.load
  split
  · simp; omega
  · simp [imageCells, eq_comm]; omega

/-- An image that does not fit is not. -/
theorem Memory.load_eq_none {m : Memory} {bytes : List Byte} {base : Nat} :
    m.load bytes base = none ↔ memSize < base + bytes.length := by
  simp [Memory.load]

/-- Outside the image a load changes no byte. -/
theorem Memory.read_load_outside {m m' : Memory} {bytes : List Byte} {base a : Nat} (h : m.load bytes base = some m')
    (ha : a < base ∨ base + bytes.length ≤ a) : m'.read a = m.read a := by
  obtain ⟨-, rfl⟩ := Memory.load_eq_some.mp h
  refine Memory.read_writeAll_other _ _ fun p hp => ?_
  have := mem_imageCells hp
  omega

/-- Inside it the bytes are the image's. -/
theorem Memory.read_load_image {m m' : Memory} {bytes : List Byte} {base k : Nat} (h : m.load bytes base = some m')
    (hm : m.wf = true) (hk : k < bytes.length) : m'.read (base + k) = bytes[k] := by
  obtain ⟨fits, rfl⟩ := Memory.load_eq_some.mp h
  refine Memory.read_writeAll_mem hm (fun p hp => ?_) (nodup_imageCells bytes base) (getElem_mem_imageCells hk)
  have := mem_imageCells hp
  omega

/-! ## The reset contents (R37, R67, R68) -/

theorem length_font : font.length = 0x50 := rfl

theorem unlisted_font {a : Nat} (h : a < font.length) : Memory.unlisted a = font[a] := by
  simp [Memory.unlisted, h]

theorem unlisted_fill {a : Nat} (h : 0x50 ≤ a) : Memory.unlisted a = 0x00#8 := by
  have h' : font.length ≤ a := h
  simp only [Memory.unlisted, List.getD_eq_default font memFill h']
  rfl

end Sys2Proof.Machine
end

section
/-! SUPPORT. Reset: when it answers, and the tabulated state of 10_state.md R37 it then leaves. -/

namespace Sys2Proof.Machine

/-! ## When Reset answers -/

/-- A Reset whose image loads answers the reset state with that memory (R280). -/
theorem State.resetWith_of_load {rom : List Byte} {mem : Memory} (draws : Nat)
    (loaded : State.reset.mem.load rom progBase = some mem) :
    State.resetWith draws rom = .next { State.reset with mem := mem, rndCount := draws } := by
  rw [State.resetWith, loaded]

/-- An image beyond the end of memory is `LoadTooLarge` (R66, R256). -/
theorem State.resetWith_tooLarge {rom : List Byte} (draws : Nat) (h : 3584 < rom.length) :
    State.resetWith draws rom = .fault .loadTooLarge := by
  have failed : State.reset.mem.load rom progBase = none :=
    Memory.load_eq_none.mpr (by simp only [memSize, progBase]; omega)
  rw [State.resetWith, failed]

/-- A Reset that answers has loaded the image (R280). -/
theorem State.resetWith_next {draws : Nat} {rom : List Byte} {t : State} (h : State.resetWith draws rom = .next t) :
    ∃ mem, State.reset.mem.load rom progBase = some mem ∧ t = { State.reset with mem := mem, rndCount := draws } := by
  unfold State.resetWith at h
  split at h <;> cases h
  exact ⟨_, by assumption, rfl⟩

/-! ## The reset values of the elements -/

theorem State.reg_reset (r : Reg) : State.reset.reg r = 0x00#8 := by simp [State.reg, State.reset]

theorem State.stack_reset (j : Fin 16) : State.reset.stack[j] = 0x0000#16 := by simp [State.reset]

theorem State.pixel_reset (x : Fin 64) (y : Fin 32) : State.reset.pixel x y = false := Framebuffer.pixel_clear x y

theorem State.key_reset (k : Nibble) : State.reset.key k = false := by simp [State.key, State.reset]

/-! ## Memory after Reset -/

section
variable {rom : List Byte} {mem : Memory} (loaded : State.reset.mem.load rom progBase = some mem)
include loaded

theorem read_reset_font {a : Nat} (h : a < font.length) : mem.read a = font[a] := by
  have below : a < progBase := Nat.lt_trans h (by decide)
  rw [Memory.read_load_outside loaded (.inl below), ← unlisted_font h]
  rfl

theorem read_reset_fill {a : Nat} (font_end : 0x50 ≤ a) (outside : a < progBase ∨ progBase + rom.length ≤ a) :
    mem.read a = 0x00#8 := by
  rw [Memory.read_load_outside loaded outside, ← unlisted_fill font_end]
  rfl

end

/-- Settles O43: the image loads just when it has at most 3584 bytes, and Reset writes nothing else but memory. -/
theorem resetLeavesTheTabulatedState : Obligations.ResetLeavesTheTabulatedState := by
  refine fun draws rom => ⟨fun fits => ?_, State.resetWith_tooLarge draws⟩
  have loaded : State.reset.mem.load rom progBase = some (State.reset.mem.writeAll (imageCells rom progBase)) :=
    Memory.load_eq_some.mpr ⟨by simp only [memSize, progBase]; omega, rfl⟩
  have answers := State.resetWith_of_load draws loaded
  refine ⟨_, answers, State.reg_reset, rfl, rfl, rfl, State.stack_reset, rfl, rfl, rfl,
    fun a h => read_reset_font loaded h, length_font,
    fun a font_end below => read_reset_fill loaded font_end (.inl below),
    fun k h => Memory.read_load_image loaded Memory.wf_empty h,
    fun a image_end _ => read_reset_fill loaded (by omega) (.inr image_end),
    State.pixel_reset, State.key_reset, ?_⟩
  rintro sys rfl
  rw [System.event_reset_next answers]
  exact ⟨rfl, rfl, rfl⟩

end Sys2Proof.Machine
end

section
/-! SUPPORT. The invariants of 10_state.md R38: they hold after Reset, every event keeps them, so they hold at the block
after any events; and a state that meets them refuses no step. -/

namespace Sys2Proof.Machine

/-! ## The program counter -/

theorem State.PcWf.advance {s : State} (h : s.PcWf) : (s.advance Config.hardware).PcWf := nextPc_mask_even h.2

theorem State.PcWf.skipIf {s : State} (h : s.PcWf) (cond : Bool) : (s.skipIf cond Config.hardware).PcWf := by
  cases cond
  · exact h.advance
  · exact h.advance.advance

/-- An even target inside the address space is a value `PC` may take (R129). -/
theorem toNat_toWord_target {target : Nat} (even : target % 2 = 0) (inside : target < memSize) :
    (toWord target).toNat ≤ 0xFFE ∧ (toWord target).toNat % 2 = 0 := by
  have bound : target < 0x1000 := inside
  rw [toNat_toWord (by omega)]
  omega

/-! ## The stack -/

/-- `Push` of an even address that `PC` may take keeps the stack well-formed (R27). -/
theorem State.StackWf.push {s t : State} {w : Word} (h : s.StackWf) (hw : w.toNat ≤ 0xFFE ∧ w.toNat % 2 = 0)
    (room : s.sp.toNat < 16) (hsp : t.sp = s.sp + 1#8) (hstack : t.stack = s.stack.set s.sp.toNat w room) :
    t.StackWf := by
  obtain ⟨-, live⟩ := h
  have count : t.sp.toNat = s.sp.toNat + 1 := by rw [hsp, BitVec.toNat_add]; simp; omega
  refine ⟨by omega, fun j hj => ?_⟩
  by_cases top : s.sp.toNat = j.val
  · simpa [hstack, top] using hw
  · have below := live j (by omega)
    simpa [hstack, Vector.getElem_set_ne, top] using below

/-- `Pop` keeps the stack well-formed: fewer entries are live (R28). -/
theorem State.StackWf.pop {s t : State} {k : Nat} (h : s.StackWf) (count : s.sp.toNat = k + 1)
    (hsp : t.sp = s.sp - 1#8) (hstack : t.stack = s.stack) : t.StackWf := by
  obtain ⟨bound, live⟩ := h
  have count' : t.sp.toNat = k := by rw [hsp, BitVec.toNat_sub]; simp; omega
  refine ⟨by omega, fun j hj => ?_⟩
  rw [hstack]
  exact live j (by omega)

/-! ## What keeps the invariants -/

/-- They speak of `PC`, the stack and the memory only. -/
theorem State.Inv.of_same {s t : State} (h : s.Inv) (pc : t.PcWf) (sp : t.sp = s.sp) (stack : t.stack = s.stack)
    (mem : t.mem = s.mem) : t.Inv where
  pc := pc
  stack := by simpa only [StackWf, sp, stack] using h.stack
  low := by simpa only [LowMemoryWf, mem] using h.low
  memory := by simpa only [mem] using h.memory

/-- The state after an instruction meets the invariants if the state before it does. -/
theorem Effect.inv {i : Instr} {s t : State} (e : Effect s i t) (h : s.Inv) : t.Inv := by
  cases e with
  | keyWait => exact h
  | skip cond => exact h.of_same (h.pc.skipIf cond) (by simp) (by simp) (by simp)
  | store _ stored =>
    obtain ⟨wf, low⟩ := storeBytes_ok stored
    exact ⟨h.pc.advance, h.stack, fun a ha => (low a ha).trans (h.low a ha), wf h.memory⟩
  | jump _ even inside => exact h.of_same (toNat_toWord_target even inside) rfl rfl rfl
  | call even room =>
    exact ⟨toNat_toWord_target even (BitVec.isLt _), h.stack.push h.pc.advance room rfl rfl, h.low, h.memory⟩
  | @ret k hk live =>
    exact ⟨h.stack.2 ⟨k, hk⟩ (by simp [live]), h.stack.pop live rfl rfl, h.low, h.memory⟩
  | _ => exact h.of_same h.pc.advance rfl rfl rfl

/-- Settles O47: the instruction that ran has an effect that keeps the invariants. -/
theorem everyStepKeepsTheInvariants : Obligations.EveryStepKeepsTheInvariants := by
  intro s t h stepped
  obtain ⟨i, -, ran⟩ := step_next stepped
  exact (exec_effect ran).inv h

/-! ## Reset -/

/-- Settles O46: the stack is empty and every byte reads as its reset contents. -/
theorem resetMeetsTheInvariants : Obligations.ResetMeetsTheInvariants where
  pc := ⟨by decide, by decide⟩
  stack := ⟨by decide, fun _ live => absurd live (Nat.not_lt_zero _)⟩
  low := fun a _ => Memory.read_empty a
  memory := Memory.wf_empty

/-- The image begins at `0x200`, so the bytes below it are as at reset. -/
theorem State.resetWith_inv {draws : Nat} {rom : List Byte} {t : State} (h : State.resetWith draws rom = .next t) :
    t.Inv := by
  obtain ⟨mem, loaded, rfl⟩ := State.resetWith_next h
  have reset : State.reset.Inv := resetMeetsTheInvariants
  exact ⟨reset.pc, reset.stack, fun a ha => Memory.read_load_outside loaded (.inl ha),
    Memory.wf_load loaded reset.memory⟩

/-! ## Events -/

/-- Settles O60: a step by O47, a Reset by the reset state; a tick and a key event change none of the elements. -/
theorem everyEventKeepsTheInvariants : Obligations.EveryEventKeepsTheInvariants := by
  intro s e t h happened
  obtain ⟨-, stepped⟩ | ⟨-, rfl⟩ | ⟨k, b, -, rfl⟩ | ⟨rom, -, loaded⟩ := State.event_cases happened
  · exact everyStepKeepsTheInvariants s t h stepped
  · exact h.of_same h.pc rfl rfl rfl
  · exact h.of_same h.pc rfl rfl rfl
  · exact State.resetWith_inv loaded

/-- The state of the block after an event is the one before it (after a fault or a refusal), the one the event answers
there, or the one a Reset leaves (R255, R256). -/
theorem System.event_machine {sys : System} {e : Event} {t : State} (h : (sys.event e).2.machine = some t) :
    sys.machine = some t ∨ (∃ s, sys.machine = some s ∧ s.event e = .next t) ∨
      ∃ rom, State.resetWith sys.drawn rom = .next t := by
  cases e with
  | step =>
    cases hm : sys.machine with
    | none => simp [System.event, hm] at h
    | some s =>
      rw [System.event_step hm, System.stepAt] at h
      split at h
      · cases h
        exact .inr (.inl ⟨s, rfl, by assumption⟩)
      · exact .inl (hm.symm.trans h)
      · exact .inl (hm.symm.trans h)
  | tick =>
    cases hm : sys.machine with
    | none => simp [System.event, hm] at h
    | some s => exact .inr (.inl ⟨s, rfl, by simpa [System.event, hm, State.event] using h⟩)
  | setPressed k down =>
    cases hm : sys.machine with
    | none => simp [System.event, hm] at h
    | some s => exact .inr (.inl ⟨s, rfl, by simpa [System.event, hm, State.event] using h⟩)
  | reset rom =>
    simp only [System.event] at h
    split at h
    · cases h
      exact .inr (.inr ⟨rom, by assumption⟩)
    · cases h
    · exact .inl h

/-- If the block has a state, it meets the invariants. -/
def System.Inv (sys : System) : Prop := ∀ s, sys.machine = some s → s.Inv

theorem System.Inv.event {sys : System} (h : sys.Inv) (e : Event) : (sys.event e).2.Inv := by
  intro t ht
  obtain same | ⟨s, hs, happened⟩ | ⟨rom, loaded⟩ := System.event_machine ht
  · exact h t same
  · exact everyEventKeepsTheInvariants s e t (h s hs) happened
  · exact State.resetWith_inv loaded

theorem System.Inv.run : ∀ (events : List Event) {sys : System}, sys.Inv → (sys.run events).Inv
  | [], _, h => h
  | e :: rest, _, h => System.Inv.run rest (h.event e)

/-- Settles O48, by induction on the events: the block before its first Reset has no state. -/
theorem invariantsHoldAfterAnyEvents : Obligations.InvariantsHoldAfterAnyEvents :=
  fun events => System.Inv.run events (sys := System.initial) nofun

/-! ## No refusal -/

theorem execRet_ne_refused {s : State} (h : s.sp.toNat ≤ 16) (r : Refusal) : execRet s ≠ .refused r := by
  unfold execRet
  split
  · rename_i e failed
    obtain ⟨rfl, -⟩ := State.pop_error (s := s.advance Config.hardware) h failed
    nofun
  · nofun

theorem execCall_ne_refused {s : State} (h : s.sp.toNat ≤ 16) (nnn : Addr) (r : Refusal) :
    execCall nnn s ≠ .refused r := by
  unfold execCall
  split
  · split
    · rename_i e failed
      obtain ⟨rfl, -⟩ := State.push_error (s := s.advance Config.hardware) h failed
      nofun
    · nofun
  · nofun

theorem jumpTo_ne_refused (target : Nat) (i : Instr) (s : State) (r : Refusal) : jumpTo target i s ≠ .refused r := by
  unfold jumpTo
  split <;> nofun

theorem storeAtI_ne_refused (bytes : List Byte) (i : Instr) (s : State) (c : Config) (r : Refusal) :
    storeAtI bytes i s c ≠ .refused r := by
  unfold storeAtI
  split
  · exact raiseStore_ne_refused _ i s r
  · nofun

theorem execLdVxK_ne_refused (x : Reg) (s : State) (r : Refusal) : execLdVxK x s ≠ .refused r := by
  unfold execLdVxK
  split <;> nofun

/-- Only RET and CALL can be refused, and not while `SP` is at most 16. -/
theorem exec_ne_refused {s : State} (h : s.sp.toNat ≤ 16) (i : Instr) (r : Refusal) : exec i s ≠ .refused r := by
  cases i with
  | ret => exact execRet_ne_refused h r
  | call nnn => exact execCall_ne_refused h nnn r
  | jp nnn => exact jumpTo_ne_refused _ _ s r
  | jpV0 nnn => exact jumpTo_ne_refused _ _ s r
  | ldB x => exact storeAtI_ne_refused _ _ s _ r
  | ldMemVx x => exact storeAtI_ne_refused _ _ s _ r
  | ldVxK x => exact execLdVxK_ne_refused x s r
  | drw x y n => exact fun refused => nomatch (execDrw_eq x y n s).symm.trans refused
  | ldVxMem x => exact fun refused => nomatch (execLdVxMem_eq x s).symm.trans refused
  | _ => nofun

/-- Settles O50: the invariants bound `SP` by 16. -/
theorem noStepIsRefused : Obligations.NoStepIsRefused := by
  intro s h
  cases stepped : step s with
  | next t => exact .inl ⟨t, rfl⟩
  | fault f => exact .inr ⟨f, rfl⟩
  | refused r =>
    obtain ⟨i, -, ran⟩ := step_refused stepped
    exact absurd ran (exec_ne_refused h.stack.1 i r)

end Sys2Proof.Machine
end

section
/-! SUPPORT. Which instruction may change which element of the state (10_state.md R22, R39), and that a RET undoes the
CALL before it (R28). -/

namespace Sys2Proof.Machine

/-! ## Memory -/

/-- A store leaves every address outside `0x200`..`0xFFF` alone (R65). -/
theorem read_storeBytes_outside {p : AddrPolicy} {m m' : Memory} {base a : Nat} {bytes : List Byte}
    (h : storeBytes p m base bytes = .ok m') (ha : ¬ (progBase ≤ a ∧ a < memSize)) : m'.read a = m.read a := by
  unfold storeBytes at h
  split at h
  · cases h
  · rename_i eas checked
    cases h
    refine Memory.read_writeAll_other _ _ fun q hq same => ha ?_
    exact same ▸ (storeAddrs_ok checked).2 _ (List.of_mem_zip hq).1

theorem Effect.mem {i : Instr} {s t : State} (e : Effect s i t) :
    t.mem = s.mem ∨ Stores i ∧ ∃ bytes, storeBytes .mask s.mem s.i.toNat bytes = .ok t.mem := by
  cases e with
  | store stores stored => exact .inr ⟨stores, _, stored⟩
  | _ => exact .inl (by simp)

/-- Settles O55: memory is the same data but after a store, and a store leaves the other addresses alone. -/
theorem onlyStoresChangeMemory : Obligations.OnlyStoresChangeMemory := by
  intro i s t a ran changed
  obtain same | ⟨stores, bytes, stored⟩ := (exec_effect ran).mem
  · exact absurd (by rw [same]) changed
  · exact ⟨stores, by_contra fun outside => changed (read_storeBytes_outside stored outside)⟩

/-! ## The flag register -/

/-- A block load writes `V[0]`..`V[x]` (R186), so `VF` only with `x = 15`. -/
theorem reg_vf_setRegsFrom (s : State) {x : Reg} {bytes : List Byte} (length : bytes.length = x.toNat + 1)
    (hx : x ≠ vf) : ({ s with v := setRegsFrom s.v 0 bytes }).reg vf = s.reg vf := by
  have below : x.toNat ≠ 15 := fun e => hx (BitVec.eq_of_toNat_eq e)
  have bound := x.isLt
  have h : (setRegsFrom s.v 0 bytes)[15] = s.v[15] := by
    rw [getElem_setRegsFrom, dif_neg (by omega)]
  exact h

theorem Effect.flag {i : Instr} {s t : State} (e : Effect s i t) :
    t.reg vf = s.reg vf ∨ WritesFlag i ∨ destination i = some vf ∨ i = .ldVxMem vf := by
  have named (x : Reg) (b : Byte) (u : State) : (u.setReg x b).reg vf = u.reg vf ∨ x = vf := by
    by_cases hx : x = vf
    · exact .inr hx
    · exact .inl (State.reg_setReg_other u b (Ne.symm hx))
  cases e with
  | setReg b dest =>
    rename_i x
    obtain same | rfl := named x b (s.advance Config.hardware)
    · exact .inl same
    · exact .inr (.inr (.inl dest))
  | random x nn b draws =>
    obtain same | rfl := named x b (s.advance Config.hardware)
    · exact .inl same
    · exact .inr (.inr (.inl rfl))
  | setFlag x b flag writes => exact .inr (.inl writes)
  | draw x y n fb flag => exact .inr (.inl (by simp [WritesFlag]))
  | loadRegs x =>
    by_cases hx : x = vf
    · exact .inr (.inr (.inr (by rw [hx])))
    · exact .inl (reg_vf_setRegsFrom (s.advance Config.hardware) (by simp [bytesAtI]) hx)
  | skip cond => exact .inl (State.reg_skipIf ..)
  | _ => exact .inl rfl

/-- A flag writer writes the flag byte last (R150, R202). -/
theorem reg_vf_of_writesFlag {i : Instr} {s t : State} (writes : WritesFlag i) (ran : exec i s = .next t) :
    ∃ flag, t.reg vf = flagByte flag := by
  have last (u : State) (b : Bool) : ∃ flag, (u.setReg vf (flagByte b)).reg vf = flagByte flag :=
    ⟨b, State.reg_setReg_same ..⟩
  obtain ⟨x, y, rfl⟩ | ⟨x, y, rfl⟩ | ⟨x, y, rfl⟩ | ⟨x, y, rfl⟩ | ⟨x, y, rfl⟩ | ⟨x, y, n, rfl⟩ := writes
  on_goal 6 => replace ran := (execDrw_eq x y n s).symm.trans ran
  all_goals
    cases ran
    exact last ..

/-- Settles O56: the effects say who changes `VF`, and the flag writers write the flag byte last. -/
theorem flagChangesOnlyByItsWriters : Obligations.FlagChangesOnlyByItsWriters := by
  intro i s t ran
  refine ⟨fun changed => (exec_effect ran).flag.resolve_left changed, fun writes => ?_⟩
  obtain ⟨flag, written⟩ := reg_vf_of_writesFlag writes ran
  cases flag
  · exact .inl written
  · exact .inr written

/-! ## The other elements -/

section
variable {i : Instr} {s t : State}

theorem Effect.index (e : Effect s i t) :
    SameIndex s t ∨ (∃ nnn, i = .ldI nnn) ∨ (∃ x, i = .addI x) ∨ ∃ x, i = .ldF x := by
  cases e with
  | setIndex _ writes => exact .inr writes
  | _ => exact .inl (by simp [SameIndex])

theorem Effect.stack (e : Effect s i t) : SameStack s t ∨ (∃ nnn, i = .call nnn) ∨ i = .ret := by
  cases e with
  | call => exact .inr (.inl ⟨_, rfl⟩)
  | ret => exact .inr (.inr rfl)
  | _ => exact .inl (by simp [SameStack])

theorem Effect.delay (e : Effect s i t) : t.dt = s.dt ∨ ∃ x, i = .ldDtVx x := by
  cases e with
  | setDelay x => exact .inr ⟨x, rfl⟩
  | _ => exact .inl (by simp)

theorem Effect.sound (e : Effect s i t) : t.st = s.st ∨ ∃ x, i = .ldStVx x := by
  cases e with
  | setSound x => exact .inr ⟨x, rfl⟩
  | _ => exact .inl (by simp)

theorem Effect.screen (e : Effect s i t) : SameScreen s t ∨ i = .cls ∨ ∃ x y n, i = .drw x y n := by
  cases e with
  | clear => exact .inr (.inl rfl)
  | draw x y n => exact .inr (.inr ⟨x, y, n, rfl⟩)
  | _ => exact .inl (by simp [SameScreen, State.pixel])

theorem Effect.keys (e : Effect s i t) : SameKeys s t := by
  cases e <;> simp [SameKeys, State.key]

end

/-- Settles O57, element by element. -/
theorem everyElementChangesOnlyByItsWriters : Obligations.EveryElementChangesOnlyByItsWriters := by
  intro i s t ran
  have e := exec_effect ran
  exact ⟨e.index.resolve_left, e.stack.resolve_left, e.delay.resolve_left, e.sound.resolve_left,
    e.screen.resolve_left, e.keys⟩

/-! ## CALL and RET -/

/-- Settles O58: the entry that RET pops is the one that CALL pushed. -/
theorem retReturnsToTheAddressAfterTheCall : Obligations.RetReturnsToTheAddressAfterTheCall := by
  intro nnn s t u called sameStack
  obtain ⟨-, room, rfl⟩ := execCall_next called
  obtain ⟨sp, stack⟩ : u.sp = s.sp + 1#8 ∧ u.stack = s.stack.set s.sp.toNat (nextPc .mask s.pc) room := sameStack
  have count : u.sp.toNat = s.sp.toNat + 1 := by rw [sp, BitVec.toNat_add]; simp; omega
  refine ⟨_, execRet_of_eq room count, ?_, ?_⟩
  · simp [stack, toNat_nextPc_mask]
  · simp [sp]

end Sys2Proof.Machine
end

section
/-! SUPPORT. The cycle and the store as the fetch sees them (20_memory.md R69, R70, R74; 30_encoding.md R90). -/

namespace Sys2Proof.Machine

/-! ## The cycle -/

/-- Two bytes decode to an instruction when their word does (R69). -/
theorem decodeWord_of_decode {hi lo : Byte} {i : Instr} {rest : List Byte} (h : decode [hi, lo] = .ok (i, rest)) :
    decodeWord (wordOfBytes hi lo) = some i := by
  simp only [decode] at h
  split at h
  · cases h
    assumption
  · cases h

/-- A step whose word decodes runs the instruction. -/
theorem step_of_decodeWord {s : State} {i : Instr} (h : decodeWord (wordAtPc s) = some i) : step s = exec i s := by
  rw [step_eq, h]

/-- A step that answers a next state puts it at the block and changes nothing else there (R90). -/
theorem System.stepAt_next {s t : State} (sys : System) (stepped : step s = .next t) :
    sys.stepAt s = (if s.pending then .pending else .ok, { sys with machine := some t }) := by
  rw [System.stepAt, stepped]

/-- Settles O6: the two bytes are the word that the cycle decodes, and the block's step event is `stepAt`. -/
theorem stepRunsTheDecodedInstruction : Obligations.StepRunsTheDecodedInstruction := by
  refine fun s => ⟨fun i decoded => step_of_decodeWord (decodeWord_of_decode decoded), ?_⟩
  intro sys t machine stepped
  rw [System.event_step machine, System.stepAt_next sys stepped]
  exact ⟨fun running => by rw [running]; rfl, fun waiting => by rw [waiting]; rfl⟩

/-! ## A store read back -/

/-- Under masking a store that passes its checks goes to the masked addresses, in order (R184). -/
theorem storeAddrs_mask_ok : ∀ {n base : Nat} {eas : List Nat}, storeAddrs .mask base n = .ok eas →
    eas = (List.range' base n).map (· % memSize)
  | 0, _, _, h => by cases h; rfl
  | n + 1, base, eas, h => by
    simp only [storeAddrs, storeAddr, effAddr_mask] at h
    split at h
    · cases h
    · rename_i ea checked
      split at h
      · cases h
      · rename_i rest others
        cases h
        split at checked <;> cases checked
        rw [storeAddrs_mask_ok others, List.range'_succ, List.map_cons]

/-- At most `memSize` consecutive addresses stay different when masked. -/
theorem nodup_masked_addresses (base : Nat) {n : Nat} (h : n ≤ memSize) :
    ((List.range' base n).map (· % memSize)).Nodup := by
  refine List.Nodup.map_on (fun a ha b hb same => ?_) List.nodup_range'
  have := List.mem_range'_1.mp ha
  have := List.mem_range'_1.mp hb
  simp only [memSize] at h same
  omega

/-- A stored byte is read back at its masked address (R64, R184). -/
theorem read_storeBytes_mask {m m' : Memory} {base k : Nat} {bytes : List Byte} (hm : m.wf = true)
    (stored : storeBytes .mask m base bytes = .ok m') (fits : bytes.length ≤ memSize) (hk : k < bytes.length) :
    m'.read ((base + k) % memSize) = bytes[k] := by
  unfold storeBytes at stored
  split at stored
  · cases stored
  · rename_i eas checked
    cases stored
    have masked := storeAddrs_mask_ok checked
    obtain ⟨length, inside⟩ := storeAddrs_ok checked
    refine Memory.read_writeAll_mem hm (fun p hp => (inside _ (List.of_mem_zip hp).1).2) ?_ ?_
    · rw [List.map_fst_zip (Nat.le_of_eq length), masked]
      exact nodup_masked_addresses base fits
    · exact List.mem_iff_getElem.mpr ⟨k, by simp [length, hk], by simp [masked]⟩

/-- After LD [I],Vx the address `(I + k) mod 0x1000` reads as `V[k]` (R185). -/
theorem read_execLdMemVx {x : Reg} {s t : State} (wf : s.mem.wf = true) (ran : execLdMemVx x s = .next t) {k : Nat}
    (hk : k ≤ x.toNat) : t.mem.read ((s.i.toNat + k) % memSize) = s.v[k]'(Nat.lt_of_le_of_lt hk x.isLt) := by
  obtain ⟨mem, stored, rfl⟩ := storeAtI_next ran
  have length := length_regsUpTo s x
  have bound := x.isLt
  rw [← getElem_regsUpTo s x k (by omega)]
  exact read_storeBytes_mask wf stored (by simp only [memSize]; omega) (by omega)

/-- With `PC` at a masked address the word fetched is that of the two bytes there (R70). -/
theorem wordAtPc_at (t : State) (a : Nat) :
    wordAtPc { t with pc := BitVec.ofNat 16 (a % 0x1000) } =
      t.mem.read (a % memSize) ++ t.mem.read ((a + 1) % memSize) := by
  have pc : a % 0x1000 % 2 ^ 16 = a % 0x1000 := by omega
  have low : a % 0x1000 % 0x1000 = a % 0x1000 := by omega
  have high : (a % 0x1000 + 1) % 0x1000 = (a + 1) % 0x1000 := by omega
  simp only [wordAtPc, BitVec.toNat_ofNat, pc, low, high, memSize]

/-- Settles O31: the two bytes fetched are the first two that the store wrote. -/
theorem storedBytesAreFetchedAsTheNextWord : Obligations.StoredBytesAreFetchedAsTheNextWord := by
  intro x s t wf two ran
  rw [wordAtPc_at, read_execLdMemVx wf ran two]
  have first := read_execLdMemVx wf ran (Nat.zero_le _)
  rw [Nat.add_zero] at first
  rw [first]
  rfl

end Sys2Proof.Machine
end

section
/-! SUPPORT. A tick and a key event change the timers and the keys by a function of their own value, so they commute
with an instruction that does not use what they change (20_memory.md R75, 60_exceptions.md R255). -/

namespace Sys2Proof.Machine

/-- Both timers changed by `timer`, the keys by `keys`: what the agents beside the Interpreter do to a state. -/
def State.mapInputs (s : State) (timer : Byte → Byte) (keys : Vector Bool 16 → Vector Bool 16) : State :=
  { s with dt := timer s.dt, st := timer s.st, keys := keys s.keys }

theorem State.tick_eq_mapInputs (s : State) : s.tick = s.mapInputs tickTimer id := rfl

theorem State.setPressed_eq_mapInputs (s : State) (k : Nibble) (down : Bool) :
    s.setPressed k down = s.mapInputs id (·.set k.toNat down k.isLt) := rfl

section
variable {timer : Byte → Byte} {keys : Vector Bool 16 → Vector Bool 16} {s t : State}

theorem State.mapInputs_skipIf (s : State) (cond : Bool) (c : Config) :
    (s.mapInputs timer keys).skipIf cond c = (s.skipIf cond c).mapInputs timer keys := by
  cases cond <;> rfl

theorem jumpTo_mapInputs {target : Nat} {i : Instr} (ran : jumpTo target i s = .next t) :
    jumpTo target i (s.mapInputs timer keys) = .next (t.mapInputs timer keys) := by
  obtain ⟨even, rfl⟩ := jumpTo_next ran
  simp only [jumpTo, isEven, even]
  rfl

theorem storeAtI_mapInputs {bytes : List Byte} {i : Instr} {c : Config} (ran : storeAtI bytes i s c = .next t) :
    storeAtI bytes i (s.mapInputs timer keys) c = .next (t.mapInputs timer keys) := by
  obtain ⟨mem, stored, rfl⟩ := storeAtI_next ran
  have same : (s.mapInputs timer keys).mem = s.mem ∧ (s.mapInputs timer keys).i = s.i := ⟨rfl, rfl⟩
  rw [storeAtI, same.1, same.2, stored]
  rfl

/-- A CALL of an even target with room on the stack completes (R123). -/
theorem execCall_of_even {nnn : Addr} (even : nnn.toNat % 2 = 0) (room : s.sp.toNat < 16) :
    execCall nnn s = .next { s with stack := s.stack.set s.sp.toNat (nextPc .mask s.pc) room, sp := s.sp + 1#8,
                                    pc := toWord nnn.toNat } := by
  have pushed : (s.advance Config.hardware).push (s.advance Config.hardware).pc = _ :=
    State.push_of_lt (s := s.advance Config.hardware) room
  have even' : isEven nnn.toNat = true := by simp [isEven, even]
  rw [execCall, if_pos even', pushed]
  rfl

theorem execLdVxK_mapInputs {x : Reg} (ran : execLdVxK x s = .next t) :
    execLdVxK x (s.mapInputs timer id) = .next (t.mapInputs timer id) := by
  have same : (s.mapInputs timer id).lowestKey = s.lowestKey := rfl
  rw [execLdVxK] at ran ⊢
  rw [same]
  split at ran <;> cases ran <;> rfl

/-- An instruction that uses no input that is changed does the same before the change as after it. -/
theorem exec_mapInputs {i : Instr} (timers : UsesTimer i → timer = id) (reads : ReadsKeys i → keys = id)
    (ran : exec i s = .next t) : exec i (s.mapInputs timer keys) = .next (t.mapInputs timer keys) := by
  cases i with
  | sys => cases ran
  | jp | jpV0 => exact jumpTo_mapInputs ran
  | call nnn =>
    obtain ⟨even, room, rfl⟩ := execCall_next ran
    exact execCall_of_even (s := s.mapInputs timer keys) even room
  | ret =>
    obtain ⟨k, hk, live, rfl⟩ := execRet_next ran
    exact execRet_of_eq hk live
  | drw x y n =>
    cases (execDrw_eq x y n s).symm.trans ran
    exact execDrw_eq x y n (s.mapInputs timer keys)
  | ldVxMem x =>
    cases (execLdVxMem_eq x s).symm.trans ran
    exact execLdVxMem_eq x (s.mapInputs timer keys)
  | ldB | ldMemVx => exact storeAtI_mapInputs ran
  | seImm | sneImm | seReg | sneReg =>
    cases ran
    exact congrArg Host.Outcome.next (State.mapInputs_skipIf s _ _)
  | skp | sknp =>
    obtain rfl := reads (by simp [ReadsKeys])
    cases ran
    exact congrArg Host.Outcome.next (State.mapInputs_skipIf s _ _)
  | ldVxK =>
    obtain rfl := reads (by simp [ReadsKeys])
    exact execLdVxK_mapInputs ran
  | ldVxDt | ldDtVx | ldStVx =>
    obtain rfl := timers (by simp [UsesTimer])
    cases ran
    rfl
  | _ => cases ran; rfl

end

/-- Settles O42: a tick leaves the keys as they are, a key event the timers. -/
theorem otherAgentsCommuteWithUnrelatedInstructions : Obligations.OtherAgentsCommuteWithUnrelatedInstructions := by
  intro i s t ran
  refine ⟨fun noTimer => ?_, fun noKeys k down => ?_⟩
  · rw [State.tick_eq_mapInputs, State.tick_eq_mapInputs]
    exact exec_mapInputs (fun uses => absurd uses noTimer) (fun _ => rfl) ran
  · rw [State.setPressed_eq_mapInputs, State.setPressed_eq_mapInputs]
    exact exec_mapInputs (fun _ => rfl) (fun reads => absurd reads noKeys) ran

end Sys2Proof.Machine
end

section
/-! SUPPORT. The decoder: it is the inverse of the encoder on the well-formed instructions, it follows the opcode map, and
the words it leaves out are those of the table of unknown words (30_encoding.md R95 to R102). -/

namespace Sys2Proof

/-! ## Decoding an encoded instruction -/

/-- The word of a SYS term that is neither CLS nor RET is not one of the two exact words of its family (R120). -/
theorem decode0_encodeAddr {nnn : Addr} (notCls : nnn ≠ 0x0E0#12) (notRet : nnn ≠ 0x0EE#12) :
    decode0 (encodeAddr 0x0#4 nnn) = some (.sys nnn) := by
  have field (w : Word) (same : encodeAddr 0x0#4 nnn = w) : nnn = Field.nnn w := by
    rw [← same, Field.nnn_encodeAddr]
  have wordCls : encodeAddr 0x0#4 nnn ≠ 0x00E0#16 := fun same => notCls (field _ same)
  have wordRet : encodeAddr 0x0#4 nnn ≠ 0x00EE#16 := fun same => notRet (field _ same)
  rw [decode0, if_neg wordCls, if_neg wordRet, Field.nnn_encodeAddr]

/-- The fields of the word of an instruction are its family, its operands and its selector. -/
theorem decodeWord_encodeWord {i : Instr} (wf : i.wellFormed = true) : decodeWord (encodeWord i) = some i := by
  cases i with
  | cls | ret => rfl
  | sys nnn =>
    obtain ⟨notCls, notRet⟩ : nnn ≠ 0x0E0#12 ∧ nnn ≠ 0x0EE#12 := by simpa [Instr.wellFormed] using wf
    simp [encodeWord, decodeWord, decode0_encodeAddr notCls notRet]
  | jp | call | ldI | jpV0 => simp [encodeWord, decodeWord]
  | seImm | sneImm | ldImm | addImm | rnd => simp [encodeWord, decodeWord]
  | seReg | sneReg | drw => simp [encodeWord, decodeWord]
  | ldReg | orReg | andReg | xorReg | addReg | sub | shr | subn | shl => simp [encodeWord, decodeWord, decode8]
  | skp | sknp => simp [encodeWord, decodeWord, decodeE]
  | ldVxDt | ldVxK | ldDtVx | ldStVx | addI | ldF | ldB | ldMemVx | ldVxMem => simp [encodeWord, decodeWord, decodeF]

/-- Settles O1: the two bytes of an instruction are those of its word. -/
theorem decodeOfEncodeGivesTheInstructionBack : Obligations.DecodeOfEncodeGivesTheInstructionBack := by
  intro i rest wf
  have bytes : encode i ++ rest = highByte (encodeWord i) :: lowByte (encodeWord i) :: rest := rfl
  rw [bytes, decode_bytes, decodeWord_encodeWord wf]

/-- Settles O5: the decoder computes on the bytes. -/
theorem printedWordsDecodeAsGlossed : Obligations.PrintedWordsDecodeAsGlossed :=
  fun _ => ⟨rfl, rfl, rfl, rfl, rfl⟩

/-! ## Encoding a decoded word -/

section
variable {op : Word} {f : Nibble}

theorem encodeAddr_of_family (family : (Field.n3 op).toNat = f.toNat) : encodeAddr f (Field.nnn op) = op := by
  rw [← BitVec.eq_of_toNat_eq family, encodeAddr_fields]

theorem encodeXNN_of_family (family : (Field.n3 op).toNat = f.toNat) :
    encodeXNN f (Field.x op) (Field.nn op) = op := by
  rw [← BitVec.eq_of_toNat_eq family, encodeXNN_fields]

theorem encodeXNN_of_selector {nn : Byte} (family : (Field.n3 op).toNat = f.toNat)
    (selector : (Field.nn op).toNat = nn.toNat) : encodeXNN f (Field.x op) nn = op := by
  rw [← BitVec.eq_of_toNat_eq selector, encodeXNN_of_family family]

theorem encodeXYN_of_family (family : (Field.n3 op).toNat = f.toNat) :
    encodeXYN f (Field.x op) (Field.y op) (Field.n op) = op := by
  rw [← BitVec.eq_of_toNat_eq family, encodeXYN_fields]

theorem encodeXYN_of_selector {n : Nibble} (family : (Field.n3 op).toNat = f.toNat)
    (selector : (Field.n op).toNat = n.toNat) : encodeXYN f (Field.x op) (Field.y op) n = op := by
  rw [← BitVec.eq_of_toNat_eq selector, encodeXYN_of_family family]

end

section
variable {op : Word} {i : Instr}

theorem decode0_sound (family : (Field.n3 op).toNat = 0x0) (h : decode0 op = some i) :
    i.wellFormed = true ∧ encodeWord i = op := by
  have word : encodeAddr 0x0#4 (Field.nnn op) = op := encodeAddr_of_family family
  unfold decode0 at h
  split at h
  case isTrue cls => cases h; exact ⟨rfl, cls.symm⟩
  split at h <;> cases h
  case isFalse.isTrue.refl ret => exact ⟨rfl, ret.symm⟩
  case isFalse.isFalse.refl notCls notRet =>
    have nnnCls : Field.nnn op ≠ 0x0E0#12 := fun same => notCls (by rw [← word, same]; rfl)
    have nnnRet : Field.nnn op ≠ 0x0EE#12 := fun same => notRet (by rw [← word, same]; rfl)
    exact ⟨by simp [Instr.wellFormed, nnnCls, nnnRet], word⟩

theorem decode8_sound (family : (Field.n3 op).toNat = 0x8) (h : decode8 op = some i) :
    i.wellFormed = true ∧ encodeWord i = op := by
  unfold decode8 at h
  split at h <;> cases h
  all_goals exact ⟨rfl, encodeXYN_of_selector family ‹_›⟩

theorem decodeE_sound (family : (Field.n3 op).toNat = 0xE) (h : decodeE op = some i) :
    i.wellFormed = true ∧ encodeWord i = op := by
  unfold decodeE at h
  split at h <;> cases h
  all_goals exact ⟨rfl, encodeXNN_of_selector family ‹_›⟩

theorem decodeF_sound (family : (Field.n3 op).toNat = 0xF) (h : decodeF op = some i) :
    i.wellFormed = true ∧ encodeWord i = op := by
  unfold decodeF at h
  split at h <;> cases h
  all_goals exact ⟨rfl, encodeXNN_of_selector family ‹_›⟩

end

/-- Settles O2, family by family: a word is the word of its family and its fields. -/
theorem decodedWordIsTheWordOfItsInstruction : Obligations.DecodedWordIsTheWordOfItsInstruction := by
  intro op i h
  unfold decodeWord at h
  split at h
  case h_1 family => exact decode0_sound family h
  case h_9 family => exact decode8_sound family h
  case h_15 family => exact decodeE_sound family h
  case h_16 family => exact decodeF_sound family h
  case h_17 => cases h
  case h_6 family | h_10 family =>
    split at h <;> cases h
    exact ⟨rfl, encodeXYN_of_selector family (congrArg BitVec.toNat ‹_›)⟩
  case h_14 family => cases h; exact ⟨rfl, encodeXYN_of_family family⟩
  case h_2 family | h_3 family | h_11 family | h_12 family => cases h; exact ⟨rfl, encodeAddr_of_family family⟩
  case h_4 family | h_5 family | h_7 family | h_8 family | h_13 family =>
    cases h; exact ⟨rfl, encodeXNN_of_family family⟩

/-! ## The opcode map

What each mask of the map leaves of a word, and so which fields a row fixes. -/

section
variable (op p : Word)

theorem and_word : op &&& 0xFFFF#16 = op := BitVec.and_allOnes

theorem and_family_eq_iff :
    op &&& 0xF000#16 = p ↔ (Field.n3 op).toNat = p.toNat / 4096 ∧ p.toNat % 4096 = 0 := by
  have kept : op &&& 0xF000#16 = encodeAddr (Field.n3 op) 0#12 := by
    rw [← encodeAddr_mask_family _ (Field.nnn op), encodeAddr_fields]
  rw [kept, ← BitVec.toNat_inj, toNat_encodeAddr, BitVec.toNat_ofNat]
  omega

theorem and_nibble_eq_iff :
    op &&& 0xF00F#16 = p ↔ (Field.n3 op).toNat = p.toNat / 4096 ∧ (Field.n op).toNat = p.toNat % 4096 := by
  have kept : op &&& 0xF00F#16 = encodeXYN (Field.n3 op) 0#4 0#4 (Field.n op) := by
    rw [← encodeXYN_mask_selector _ (Field.x op) (Field.y op), encodeXYN_fields]
  rw [kept, ← BitVec.toNat_inj, toNat_encodeXYN, BitVec.toNat_ofNat]
  omega

theorem and_byte_eq_iff :
    op &&& 0xF0FF#16 = p ↔ (Field.n3 op).toNat = p.toNat / 4096 ∧ (Field.nn op).toNat = p.toNat % 4096 := by
  have kept : op &&& 0xF0FF#16 = encodeXNN (Field.n3 op) 0#4 (Field.nn op) := by
    rw [← encodeXNN_mask_selector _ (Field.x op), encodeXNN_fields]
  rw [kept, ← BitVec.toNat_inj, toNat_encodeXNN, BitVec.toNat_ofNat]
  omega

end

/-- A word that fits a row decodes to that row's instruction, for the row fixes the fields that the decoder selects by.
The words of the two exact rows, which also fit the row of SYS, are left out. -/
theorem decodeWord_of_row {op : Word} (notCls : op ≠ 0x00E0#16) (notRet : op ≠ 0x00EE#16) {r : OpcodeRow}
    (mem : r ∈ opcodeMap) (fits : op &&& r.mask = r.pattern) :
    (decodeWord op).map Instr.mnemonic = some r.mnemonic := by
  fin_cases mem
  all_goals
    simp only [BitVec.ofNat_eq_ofNat, BitVec.toNat_ofNat, and_word, notCls, notRet, and_family_eq_iff,
      and_nibble_eq_iff, and_byte_eq_iff] at fits
  all_goals
    simp [decodeWord, decode0, decode8, decodeE, decodeF, fits, notCls, notRet, Instr.mnemonic, ← BitVec.toNat_inj]

open Laws.FitsItsRow in
/-- The word of every instruction fits the row of its mnemonic (R96). -/
theorem fitsItsRow (i : Instr) : Statement i := by
  cases i
  exacts [cls, ret, sys _, jp _, call _, seImm _ _, sneImm _ _, seReg _ _, ldImm _ _, addImm _ _, ldReg _ _, orReg _ _,
    andReg _ _, xorReg _ _, addReg _ _, sub _ _, shr _ _, subn _ _, shl _ _, sneReg _ _, ldI _, jpV0 _, rnd _ _,
    drw _ _ _, skp _, sknp _, ldVxDt _, ldVxK _, ldDtVx _, ldStVx _, addI _, ldF _, ldB _, ldMemVx _, ldVxMem _]

/-- Settles O3: the first row that fits says what the word decodes to; if no row fits, the word is no instruction's, for
that would fit the instruction's row. -/
theorem decoderFollowsTheOpcodeMap : Obligations.DecoderFollowsTheOpcodeMap := by
  intro op
  by_cases notCls : op = 0x00E0#16
  · subst notCls; rfl
  by_cases notRet : op = 0x00EE#16
  · subst notRet; rfl
  cases row : opcodeRow op with
  | some r =>
    have fits : op &&& r.mask = r.pattern := by simpa using List.find?_some row
    exact decodeWord_of_row notCls notRet (List.mem_of_find?_eq_some row) fits
  | none =>
    have noRow : ∀ r ∈ opcodeMap, op &&& r.mask ≠ r.pattern := by simpa [opcodeRow] using row
    cases decoded : decodeWord op with
    | none => rfl
    | some i =>
      obtain ⟨-, rfl⟩ := decodedWordIsTheWordOfItsInstruction op i decoded
      obtain ⟨r, mem, -, fits⟩ := fitsItsRow i
      exact absurd fits (noRow r mem)

/-! ## The unknown words -/

theorem decode0_ne_none (op : Word) : decode0 op ≠ none := by
  unfold decode0
  split
  · nofun
  · split <;> nofun

theorem decode8_eq_none_iff (op : Word) :
    decode8 op = none ↔ (Field.n op).toNat ∈ [0x8, 0x9, 0xA, 0xB, 0xC, 0xD, 0xF] := by
  unfold decode8
  split
  case h_10 =>
    have := (Field.n op).isLt
    simp only [true_iff, List.mem_cons, List.not_mem_nil, or_false]
    grind
  all_goals rename_i selector; simp [selector]

theorem decodeE_eq_none_iff (op : Word) : decodeE op = none ↔ (Field.nn op).toNat ∉ [0x9E, 0xA1] := by
  unfold decodeE
  split
  case h_3 => simp_all
  all_goals rename_i selector; simp [selector]

theorem decodeF_eq_none_iff (op : Word) :
    decodeF op = none ↔ (Field.nn op).toNat ∉ [0x07, 0x0A, 0x15, 0x18, 0x1E, 0x29, 0x33, 0x55, 0x65] := by
  unfold decodeF
  split
  case h_10 => simp_all
  all_goals rename_i selector; simp [selector]

/-- Only the families 5, 8, 9, E and F have unknown words, by their selector (R99). -/
theorem decodeWord_eq_none_iff (op : Word) : decodeWord op = none ↔ Machine.InUnknownTable op := by
  simp only [Machine.InUnknownTable, ← Field.toNat_n3, ← Field.toNat_n, ← Field.toNat_nn]
  unfold decodeWord
  split
  case h_1 family => simp [family, decode0_ne_none]
  case h_9 family => simp [family, decode8_eq_none_iff]
  case h_15 family => simp [family, decodeE_eq_none_iff]
  case h_16 family => simp [family, decodeF_eq_none_iff]
  case h_6 family | h_10 family => simp [family, ← BitVec.toNat_inj]
  case h_17 => have := (Field.n3 op).isLt; grind
  all_goals rename_i family; simp [family]

/-- Settles O4: the step raises what the decoder's answer says. -/
theorem unknownWordsAreThoseOfTheTable : Obligations.UnknownWordsAreThoseOfTheTable := by
  refine fun op => ⟨decodeWord_eq_none_iff op, ?_⟩
  rintro s rfl unknown
  rw [Machine.step_eq, (decodeWord_eq_none_iff _).mpr unknown]
  rfl

end Sys2Proof
end

section
/-! SUPPORT. Where `PC` is after an instruction (30_encoding.md R90; 40_flow.md R124, R129, R130). -/

namespace Sys2Proof.Machine

/-- Two advances are one by four (R124). -/
theorem toNat_nextPc_nextPc_mask (pc : Word) :
    (nextPc .mask (nextPc .mask pc)).toNat = (pc.toNat + 4) % 0x1000 := by
  rw [toNat_nextPc_mask, toNat_nextPc_mask]
  omega

theorem Effect.pc {i : Instr} {s t : State} (e : Effect s i t) :
    PcBy 2 s t ∨ (Skips i ∧ PcBy 4 s t) ∨ ((∃ x, i = .ldVxK x) ∧ s.lowestKey = none ∧ t = s) ∨ Transfers i := by
  cases e with
  | skip cond skips =>
    cases cond
    · exact .inl (toNat_nextPc_mask s.pc)
    · exact .inr (.inl ⟨skips, toNat_nextPc_nextPc_mask s.pc⟩)
  | keyWait x noKey => exact .inr (.inr (.inl ⟨⟨x, rfl⟩, noKey, rfl⟩))
  | jump transfers => exact .inr (.inr (.inr transfers))
  | call | ret => exact .inr (.inr (.inr (by simp [Transfers])))
  | _ => exact .inl (toNat_nextPc_mask s.pc)

/-- Settles O54: every effect but a skip, a key wait and a transfer makes one advance. -/
theorem pcAdvancesByTwoOrFour : Obligations.PcAdvancesByTwoOrFour := by
  intro i s t ran noTransfer
  obtain two | four | ⟨wait, noKey, same⟩ | transfers := (exec_effect ran).pc
  · exact .inl two
  · exact .inr (.inl four)
  · exact .inr (.inr ⟨wait, (lowestKey_none s).mp noKey, same⟩)
  · exact absurd transfers noTransfer

end Sys2Proof.Machine
end

section
/-! SUPPORT. Control flow (40_flow.md R120 to R131): where each instruction leaves `PC`, that it leaves the rest alone,
and the fault it raises when it cannot complete. -/

namespace Sys2Proof.Machine

/-! ## What is left alone -/

theorem onlyPc_setPc (s : State) (pc : Word) : OnlyPc s { s with pc := pc } :=
  ⟨fun _ => rfl, rfl, ⟨rfl, rfl⟩, ⟨rfl, rfl⟩, fun _ => rfl, fun _ _ => rfl, fun _ => rfl, rfl⟩

theorem onlyPc_advance (s : State) (c : Config) : OnlyPc s (s.advance c) := onlyPc_setPc s _

theorem onlyPc_skipIf (s : State) (cond : Bool) (c : Config) : OnlyPc s (s.skipIf cond c) := by
  cases cond
  · exact onlyPc_setPc s _
  · exact onlyPc_setPc s _

theorem onlyStack_setStack (s : State) (stack : Vector Word 16) (sp : Byte) (pc : Word) :
    OnlyStack s { s with stack := stack, sp := sp, pc := pc } :=
  ⟨fun _ => rfl, rfl, ⟨rfl, rfl⟩, fun _ => rfl, fun _ _ => rfl, fun _ => rfl, rfl⟩

/-! ## Skips (R124) -/

/-- One advance, or two when the condition holds. -/
theorem pcBy_skipIf (s : State) (cond : Bool) :
    PcBy (if cond = true then 4 else 2) s (s.skipIf cond Config.hardware) := by
  cases cond
  · exact toNat_nextPc_mask s.pc
  · exact toNat_nextPc_nextPc_mask s.pc

/-- A skip on a condition that the model tests as `cond`. -/
theorem exists_next_skipIf (s : State) {cond : Bool} {p : Prop} [Decidable p] (tested : cond = true ↔ p) :
    ∃ t, (.next (s.skipIf cond Config.hardware) : Result) = .next t ∧ PcBy (if p then 4 else 2) s t ∧ OnlyPc s t := by
  refine ⟨_, rfl, ?_, onlyPc_skipIf s cond _⟩
  rw [← if_congr tested rfl rfl]
  exact pcBy_skipIf s cond

/-- Settles O13: the condition is the comparison of the register with the immediate. -/
theorem skipsOnAnImmediate : Obligations.SkipsOnAnImmediate := fun x nn s =>
  ⟨decodeWord_encodeWord (i := .seImm x nn) rfl, decodeWord_encodeWord (i := .sneImm x nn) rfl,
    exists_next_skipIf s beq_iff_eq, exists_next_skipIf s bne_iff_ne⟩

/-- Settles O14: the condition is the comparison of the two registers. -/
theorem skipsOnTwoRegisters : Obligations.SkipsOnTwoRegisters := fun x y s =>
  ⟨decodeWord_encodeWord (i := .seReg x y) rfl, decodeWord_encodeWord (i := .sneReg x y) rfl,
    exists_next_skipIf s beq_iff_eq, exists_next_skipIf s bne_iff_ne⟩

/-! ## Jumps (R122, R129, R131) -/

theorem jumpTo_of_even {target : Nat} (even : target % 2 = 0) (i : Instr) (s : State) :
    jumpTo target i s = .next { s with pc := toWord target } := by
  simp [jumpTo, isEven, even]

theorem jumpTo_of_odd {target : Nat} (odd : target % 2 = 1) (i : Instr) (s : State) :
    jumpTo target i s = raiseMisaligned (toWord target) i s := by
  simp [jumpTo, isEven, odd]

/-- Settles O10: the target of JP is the field of its word. -/
theorem jpAssignsAnEvenTarget : Obligations.JpAssignsAnEvenTarget := by
  refine fun nnn s => ⟨decodeWord_encodeWord (i := .jp nnn) rfl, fun even => ?_, fun odd => ?_⟩
  · exact ⟨_, jumpTo_of_even even _ s, toWord_addr nnn, onlyPc_setPc s _⟩
  · rw [← toWord_addr]
    exact jumpTo_of_odd odd _ s

/-- Settles O59: the target that JP assigns is the value `PC` has. -/
theorem spinLeavesTheStateUnchanged : Obligations.SpinLeavesTheStateUnchanged := by
  intro nnn s even atTarget decoded
  have jumped : exec (.jp nnn) s = .next { s with pc := toWord nnn.toNat } := jumpTo_of_even even _ s
  rw [step_of_decodeWord decoded, jumped, toWord_addr, ← atTarget]

/-- Masking the sum to 12 bits keeps its parity (R131). -/
theorem jumpTo_masked (sum : Nat) (i : Instr) (s : State) :
    (sum % 2 = 0 → ∃ t, jumpTo (sum % memSize) i s = .next t ∧ t.pc.toNat = sum % 0x1000 ∧ OnlyPc s t) ∧
    (sum % 2 = 1 → jumpTo (sum % memSize) i s = raiseMisaligned (BitVec.ofNat 16 (sum % 0x1000)) i s) := by
  have parity : sum % memSize % 2 = sum % 2 := Nat.mod_mod_of_dvd sum (by decide)
  refine ⟨fun even => ?_, fun odd => jumpTo_of_odd (parity.trans odd) i s⟩
  have inside : sum % 0x1000 < 0x10000 := by omega
  exact ⟨_, jumpTo_of_even (parity.trans even) i s, toNat_toWord inside, onlyPc_setPc s _⟩

/-- The register added under `JUMP_OFFSET_REG = VX` is the one of the top nibble of `NNN` (R131). -/
theorem jumpOffset_vx {nnn : Addr} {x : Reg} (top : x.toNat = nnn.toNat / 0x100) : jumpOffset .vx nnn = x := by
  apply BitVec.eq_of_toNat_eq
  simp only [jumpOffset, BitVec.extractLsb'_toNat, Nat.shiftRight_eq_div_pow]
  omega

/-- Settles O15: under both values of the parameter JP V0 jumps to a masked sum. -/
theorem jpV0AddsTheOffsetRegister : Obligations.JpV0AddsTheOffsetRegister := by
  intro nnn s
  obtain ⟨even, odd⟩ := jumpTo_masked (nnn.toNat + (s.reg 0x0#4).toNat) (.jpV0 nnn) s
  refine ⟨decodeWord_encodeWord (i := .jpV0 nnn) rfl, even, odd, fun x top => ?_⟩
  rw [← jumpOffset_vx top]
  exact jumpTo_masked _ (.jpV0 nnn) s

/-! ## SYS (R120) -/

/-- Settles O8: SYS is an instruction but for the words of CLS and RET, and its meaning is the policy's. -/
theorem sysAlwaysRaisesUnknownOpcode : Obligations.SysAlwaysRaisesUnknownOpcode := by
  refine fun nnn s => ⟨fun notCls notRet => ?_, rfl, _, rfl, toNat_nextPc_mask s.pc, onlyPc_advance s _⟩
  exact decodeWord_encodeWord (i := .sys nnn) (by simp [Instr.wellFormed, notCls, notRet])

/-! ## Subroutines (R121, R123) -/

theorem execRet_of_empty {s : State} (empty : s.sp.toNat = 0) : execRet s = raiseStack .underflow .ret s := by
  have popped : (s.advance Config.hardware).pop = .error .underflow := State.pop_empty empty
  rw [execRet, popped]

theorem execCall_of_odd {nnn : Addr} (odd : nnn.toNat % 2 = 1) (s : State) :
    execCall nnn s = raiseMisaligned (toWord nnn.toNat) (.call nnn) s := by
  simp [execCall, isEven, odd]

theorem execCall_of_full {nnn : Addr} {s : State} (even : nnn.toNat % 2 = 0) (full : s.sp.toNat = 16) :
    execCall nnn s = raiseStack .overflow (.call nnn) s := by
  have pushed : (s.advance Config.hardware).push (s.advance Config.hardware).pc = .error .overflow :=
    State.push_full full
  have even' : isEven nnn.toNat = true := by simp [isEven, even]
  rw [execCall, if_pos even', pushed]

/-- Settles O9: RET pops the entry below the stack pointer, if there is one. -/
theorem retPopsTheReturnAddress : Obligations.RetPopsTheReturnAddress := by
  refine ⟨rfl, fun s => ⟨execRet_of_empty, fun k live => ?_⟩⟩
  have count : (s.sp - 1#8).toNat = k.val := by rw [BitVec.toNat_sub]; simp; omega
  exact ⟨_, execRet_of_eq k.isLt live, rfl, count, rfl, onlyStack_setStack s _ _ _⟩

/-- Settles O11: CALL tests its target, then pushes the advanced `PC` if there is room. -/
theorem callPushesTheReturnAddress : Obligations.CallPushesTheReturnAddress := by
  refine fun nnn s => ⟨decodeWord_encodeWord (i := .call nnn) rfl, fun even room => ?_, fun odd => ?_,
    execCall_of_full⟩
  · have count : (s.sp + 1#8).toNat = s.sp.toNat + 1 := by rw [BitVec.toNat_add]; simp; omega
    refine ⟨_, execCall_of_even even room, toWord_addr nnn, count, fun j => ?_, onlyStack_setStack s _ _ _⟩
    by_cases top : j.val = s.sp.toNat
    · simp [top, toNat_nextPc_mask]
    · simp [top, Vector.getElem_set_ne, Ne.symm top]
  · rw [← toWord_addr]
    exact execCall_of_odd odd s

end Sys2Proof.Machine
end

section
/-! SUPPORT. Register load, arithmetic, logic and shift (41_alu.md R150 to R161): every one of them advances and writes
one register, or one register and then the flag, so what is left for each instruction is its value and its flag as
numbers. -/

namespace Sys2Proof.Machine

/-! ## What a register write leaves -/

theorem onlyRegs_setRegs (s : State) (v : Vector Byte 16) (pc : Word) : OnlyRegs s { s with v := v, pc := pc } :=
  ⟨rfl, ⟨rfl, rfl⟩, ⟨rfl, rfl⟩, fun _ => rfl, fun _ _ => rfl, fun _ => rfl, rfl⟩

/-- An instruction that advances and writes one register. -/
theorem exists_next_setReg (s : State) (x : Reg) (b : Byte) :
    ∃ t, (.next ((s.advance Config.hardware).setReg x b) : Result) = .next t ∧ PcBy 2 s t ∧ OnlyRegs s t ∧
      ∀ r, t.reg r = if r = x then b else s.reg r :=
  ⟨_, rfl, toNat_nextPc_mask s.pc, onlyRegs_setRegs s _ _, fun r => State.reg_setReg _ x r b⟩

/-- The same, where the byte written is given bit by bit. -/
theorem exists_next_setReg_bits (s : State) (x : Reg) {b : Byte} {bit : Nat → Bool}
    (bits : ∀ k, b.getLsbD k = bit k) :
    ∃ t, (.next ((s.advance Config.hardware).setReg x b) : Result) = .next t ∧ PcBy 2 s t ∧ OnlyRegs s t ∧
      (∀ r, r ≠ x → t.reg r = s.reg r) ∧ ∀ k, k < 8 → (t.reg x).getLsbD k = bit k := by
  obtain ⟨t, ran, pc, frame, regs⟩ := exists_next_setReg s x b
  refine ⟨t, ran, pc, frame, fun r other => ?_, fun k _ => ?_⟩
  · rw [regs, if_neg other]
  · rw [regs, if_pos rfl, bits]

/-- An instruction that advances, writes one register and then the flag: the flag wins in `VF` (R150, decision D14). -/
theorem exists_next_setRegThenFlag (s : State) (x : Reg) {c : Config} {b : Byte} {flag : Bool} {result flagValue : Nat}
    (mask : c.addrPolicy = .mask) (result_eq : b.toNat = result) (flag_eq : (flagByte flag).toNat = flagValue) :
    ∃ t, (.next ((s.advance c).setRegThenFlag x b flag) : Result) = .next t ∧ PcBy 2 s t ∧ OnlyRegs s t ∧
      ∀ r, (t.reg r).toNat = if r = 0xF#4 then flagValue else if r = x then result else (s.reg r).toNat := by
  refine ⟨_, rfl, ?_, onlyRegs_setRegs s _ _, fun r => ?_⟩
  · rw [PcBy, State.setRegThenFlag_pc, State.advance_pc, mask, toNat_nextPc_mask]
  · rw [State.reg_setRegThenFlag, State.reg_advance, apply_ite BitVec.toNat, apply_ite BitVec.toNat, result_eq,
      flag_eq]

/-! ## Results and flags as numbers -/

theorem toNat_carry (a b : Byte) :
    (flagByte (carryOf a b)).toNat = if a.toNat + b.toNat > 255 then 1 else 0 := by
  simp [toNat_flagByte, carryOf]

theorem toNat_noBorrow (a b : Byte) : (flagByte (noBorrowOf a b)).toNat = if a.toNat ≥ b.toNat then 1 else 0 := by
  simp [toNat_flagByte, noBorrowOf]

theorem toNat_difference (a b : Byte) : (a - b).toNat = (a.toNat + 256 - b.toNat) % 256 := by
  rw [BitVec.toNat_sub]
  omega

/-- The bit that a right shift by one shifts out is the remainder of the halving (R159). -/
theorem toNat_bitOutRight (b : Byte) : (flagByte (bitOutRight b)).toNat = b.toNat % 2 := by
  rw [toNat_flagByte, bitOutRight, BitVec.getLsbD, Nat.testBit_zero]
  simp only [decide_eq_true_eq]
  split <;> omega

theorem toNat_half (b : Byte) : (b >>> 1).toNat = b.toNat / 2 := by
  rw [BitVec.toNat_ushiftRight, Nat.shiftRight_eq_div_pow, pow_one]

/-- The bit that a left shift by one shifts out is the carry of the doubling (R161). -/
theorem toNat_bitOutLeft (b : Byte) : (flagByte (bitOutLeft b)).toNat = b.toNat / 128 := by
  have := b.isLt
  rw [toNat_flagByte, bitOutLeft, BitVec.getLsbD, Nat.testBit_eq_decide_div_mod_eq]
  simp only [decide_eq_true_eq]
  split <;> omega

theorem toNat_double (b : Byte) : (b <<< 1).toNat = 2 * b.toNat % 256 := by
  rw [BitVec.toNat_shiftLeft, Nat.shiftLeft_eq, pow_one, Nat.mul_comm]

/-! ## Loads, ADD of an immediate and logic -/

/-- Settles O16: a load writes its operand to one register. -/
theorem loadsWriteOneRegister : Obligations.LoadsWriteOneRegister := fun x y nn s =>
  ⟨decodeWord_encodeWord (i := .ldImm x nn) rfl, decodeWord_encodeWord (i := .ldReg x y) rfl,
    exists_next_setReg s x nn, exists_next_setReg s x (s.reg y)⟩

/-- Settles O17: the one register written is the destination, and the byte sum is modulo 256. -/
theorem addImmediateWritesNoFlag : Obligations.AddImmediateWritesNoFlag := by
  intro x nn s
  obtain ⟨t, ran, pc, frame, regs⟩ := exists_next_setReg s x (s.reg x + nn)
  refine ⟨decodeWord_encodeWord (i := .addImm x nn) rfl, t, ran, pc, frame, fun r => ?_⟩
  rw [regs, apply_ite BitVec.toNat, BitVec.toNat_add]

/-- Settles O18: the one register written is the destination, and its byte is combined bit by bit. -/
theorem logicWritesNoFlag : Obligations.LogicWritesNoFlag := fun x y s =>
  ⟨decodeWord_encodeWord (i := .orReg x y) rfl, decodeWord_encodeWord (i := .andReg x y) rfl,
    decodeWord_encodeWord (i := .xorReg x y) rfl,
    exists_next_setReg_bits s x fun _ => BitVec.getLsbD_or,
    exists_next_setReg_bits s x fun _ => BitVec.getLsbD_and,
    exists_next_setReg_bits s x fun _ => BitVec.getLsbD_xor⟩

/-! ## The flag writers -/

/-- Settles O19: the byte sum is modulo 256, and the flag is its carry. -/
theorem addRegistersWritesTheCarry : Obligations.AddRegistersWritesTheCarry := fun x y s =>
  ⟨decodeWord_encodeWord (i := .addReg x y) rfl,
    exists_next_setRegThenFlag s x rfl (BitVec.toNat_add ..) (toNat_carry ..)⟩

/-- Settles O20: SUBN is SUB with the operands exchanged. -/
theorem subtractionsWriteNoBorrow : Obligations.SubtractionsWriteNoBorrow := fun x y s =>
  ⟨decodeWord_encodeWord (i := .sub x y) rfl, decodeWord_encodeWord (i := .subn x y) rfl,
    exists_next_setRegThenFlag s x rfl (toNat_difference ..) (toNat_noBorrow ..),
    exists_next_setRegThenFlag s x rfl (toNat_difference ..) (toNat_noBorrow ..)⟩

/-- Settles O21: the shift of the source halves it, under both values of `SHIFT_SRC`. -/
theorem shiftRightShiftsTheSource : Obligations.ShiftRightShiftsTheSource := fun x y s =>
  ⟨decodeWord_encodeWord (i := .shr x y) rfl,
    exists_next_setRegThenFlag s x rfl (toNat_half (s.reg y)) (toNat_bitOutRight (s.reg y)),
    exists_next_setRegThenFlag s x rfl (toNat_half (s.reg x)) (toNat_bitOutRight (s.reg x))⟩

/-- Settles O22: the shift of the source doubles it, under both values of `SHIFT_SRC`. -/
theorem shiftLeftShiftsTheSource : Obligations.ShiftLeftShiftsTheSource := fun x y s =>
  ⟨decodeWord_encodeWord (i := .shl x y) rfl,
    exists_next_setRegThenFlag s x rfl (toNat_double (s.reg y)) (toNat_bitOutLeft (s.reg y)),
    exists_next_setRegThenFlag s x rfl (toNat_double (s.reg x)) (toNat_bitOutLeft (s.reg x))⟩

end Sys2Proof.Machine
end

section
/-! SUPPORT. The index register, BCD and the block moves (42_index_memory.md R180 to R186): a store at `I` writes all of
its bytes or raises ProtectedWrite, and a load at `I` reads one byte for each register. -/

namespace Sys2Proof.Machine

/-! ## A store at I (R184) -/

/-- Under masking a store at writable addresses writes its bytes to them, in order. -/
theorem storeBytes_mask (m : Memory) {base : Nat} {bytes : List Byte}
    (writable : ∀ k, k < bytes.length → progBase ≤ (base + k) % memSize) :
    storeBytes .mask m base bytes = .ok (m.writeAll (((List.range' base bytes.length).map (· % memSize)).zip bytes)) := by
  rw [storeBytes, storeAddrs_mask writable]

/-- A store changes no byte but those at its masked addresses. -/
theorem read_storeBytes_mask_other {m m' : Memory} {base a : Nat} {bytes : List Byte}
    (stored : storeBytes .mask m base bytes = .ok m') (other : ∀ k, k < bytes.length → a ≠ (base + k) % memSize) :
    m'.read a = m.read a := by
  unfold storeBytes at stored
  split at stored
  · cases stored
  · rename_i eas checked
    cases stored
    refine Memory.read_writeAll_other _ _ fun p hp same => ?_
    have address : a ∈ (List.range' base bytes.length).map (· % memSize) :=
      storeAddrs_mask_ok checked ▸ same ▸ (List.of_mem_zip hp).1
    obtain ⟨b, inside, masked⟩ := List.mem_map.mp address
    obtain ⟨k, hk, rfl⟩ := List.mem_range'.mp inside
    exact other k hk (by rw [← masked, Nat.one_mul])

theorem onlyMemory_setMem (s : State) (mem : Memory) (pc : Word) : OnlyMemory s { s with mem := mem, pc := pc } :=
  ⟨fun _ => rfl, rfl, ⟨rfl, rfl⟩, ⟨rfl, rfl⟩, fun _ _ => rfl, fun _ => rfl, rfl⟩

/-- A store at `I` that passes its checks changes memory and advances. -/
theorem storeAtI_of_stored {s : State} {bytes : List Byte} {mem : Memory} (i : Instr)
    (stored : storeBytes .mask s.mem s.i.toNat bytes = .ok mem) :
    storeAtI bytes i s Config.hardware = .next { s.advance Config.hardware with mem := mem } := by
  rw [storeAtI, hardware_addrPolicy, stored]

/-- A store at `I` whose addresses are all writable: `I + k` reads as the `k`-th byte, every other byte as before. -/
theorem exists_next_storeAtI {s : State} {bytes : List Byte} (i : Instr) (wf : s.mem.wf = true)
    (fits : bytes.length ≤ memSize) (writable : ∀ k, k < bytes.length → progBase ≤ (s.i.toNat + k) % memSize) :
    ∃ t, storeAtI bytes i s Config.hardware = .next t ∧ PcBy 2 s t ∧ OnlyMemory s t ∧
      (∀ k (hk : k < bytes.length), t.mem.read ((s.i.toNat + k) % memSize) = bytes[k]) ∧
      ∀ a, (∀ k, k < bytes.length → a ≠ (s.i.toNat + k) % memSize) → t.mem.read a = s.mem.read a := by
  have stored := storeBytes_mask s.mem writable
  exact ⟨_, storeAtI_of_stored i stored, toNat_nextPc_mask s.pc, onlyMemory_setMem s _ _,
    fun _ hk => read_storeBytes_mask wf stored fits hk, fun _ other => read_storeBytes_mask_other stored other⟩

/-- A store at `I` that would write below `0x200` raises ProtectedWrite of the first such address (R247). -/
theorem storeAtI_of_protected {s : State} {bytes : List Byte} {k : Nat} (i : Instr) (hk : k < bytes.length)
    (below : (s.i.toNat + k) % memSize < progBase) (first : ∀ j, j < k → progBase ≤ (s.i.toNat + j) % memSize) :
    storeAtI bytes i s Config.hardware = raiseStore (.protectedWrite ((s.i.toNat + k) % memSize)) i s := by
  rw [storeAtI, hardware_addrPolicy, storeBytes, storeAddrs_mask_protected hk below first]

/-! ## BCD (R183) -/

/-- Settles O27: LD B is a store of the three digits at `I`, and a digit fits in a byte. -/
theorem bcdStoresThreeDigits : Obligations.BcdStoresThreeDigits := by
  refine fun x s => ⟨decodeWord_encodeWord (i := .ldB x) rfl, fun wf writable => ?_, fun k hk => ?_⟩
  · obtain ⟨t, ran, pc, frame, stored, other⟩ :=
      exists_next_storeAtI (bytes := bcdDigits (s.reg x)) (.ldB x) wf (show 3 ≤ memSize by decide) writable
    have bound := (s.reg x).isLt
    have hundreds : t.mem.read (s.i.toNat % 0x1000) = BitVec.ofNat 8 ((s.reg x).toNat / 100) :=
      stored 0 (show 0 < 3 by decide)
    have tens : t.mem.read ((s.i.toNat + 1) % 0x1000) = BitVec.ofNat 8 ((s.reg x).toNat / 10 % 10) :=
      stored 1 (show 1 < 3 by decide)
    have ones : t.mem.read ((s.i.toNat + 2) % 0x1000) = BitVec.ofNat 8 ((s.reg x).toNat % 10) :=
      stored 2 (show 2 < 3 by decide)
    refine ⟨t, ran, pc, frame, ?_, ?_, ?_, other⟩
    · rw [hundreds, BitVec.toNat_ofNat]; omega
    · rw [tens, BitVec.toNat_ofNat]; omega
    · rw [ones, BitVec.toNat_ofNat]; omega
  · exact storeAtI_of_protected (bytes := bcdDigits (s.reg x)) (.ldB x) hk

/-! ## Block moves (R185, R186) -/

/-- Settles O28: LD [I] is a store of the registers up to `V[X]` at `I`. -/
theorem dumpStoresTheRegisters : Obligations.DumpStoresTheRegisters := by
  intro x s
  have count (k : Nat) : k < (s.regsUpTo x).length ↔ k ≤ x.toNat := by rw [length_regsUpTo, Nat.lt_succ_iff]
  have fits : (s.regsUpTo x).length ≤ memSize := by rw [length_regsUpTo, memSize]; omega
  refine ⟨decodeWord_encodeWord (i := .ldMemVx x) rfl, fun wf writable => ?_, fun k hk => ?_⟩
  · obtain ⟨t, ran, pc, frame, -, other⟩ :=
      exists_next_storeAtI (.ldMemVx x) wf fits fun k hk => writable k ((count k).mp hk)
    exact ⟨t, ran, pc, frame, fun r hr => read_execLdMemVx wf ran hr,
      fun a outside => other a fun k hk => outside k ((count k).mp hk)⟩
  · exact storeAtI_of_protected (.ldMemVx x) ((count k).mpr hk)

/-- The registers after a block load: the bytes at `I` up to `V[X]`, those above as before. -/
theorem getElem_setRegsFrom_bytesAtI (s : State) (x r : Reg) :
    (setRegsFrom s.v 0 (bytesAtI s (x.toNat + 1)))[r.toNat]'r.isLt =
      if r.toNat ≤ x.toNat then s.mem.read ((s.i.toNat + r.toNat) % 0x1000) else s.reg r := by
  rw [getElem_setRegsFrom]
  by_cases loaded : r.toNat ≤ x.toNat
  · simp [bytesAtI, loaded]
  · simp [bytesAtI, loaded, State.reg]

/-- Settles O29: the load reads one byte at `I` for each register up to `V[X]`. -/
theorem loadReadsTheRegisters : Obligations.LoadReadsTheRegisters := fun x s =>
  ⟨decodeWord_encodeWord (i := .ldVxMem x) rfl, _, execLdVxMem_eq x s, toNat_nextPc_mask s.pc, onlyRegs_setRegs s _ _,
    getElem_setRegsFrom_bytesAtI s x⟩

/-- Settles O30: the load reads the addresses that the dump wrote, for `I` is unchanged. -/
theorem dumpThenLoadGivesTheRegistersBack : Obligations.DumpThenLoadGivesTheRegistersBack := by
  intro x s t u w wf dumped memory index loaded r hr
  obtain ⟨-, w', ran, -, -, regs⟩ := loadReadsTheRegisters x u
  cases ran.symm.trans loaded
  have base : u.i = s.i := by
    obtain ⟨mem, -, rfl⟩ := storeAtI_next dumped
    exact index
  rw [regs, if_pos hr, memory, base]
  exact read_execLdMemVx wf dumped hr

/-! ## The index register (R180 to R182) -/

theorem onlyIndex_setIndex (s : State) (i pc : Word) : OnlyIndex s { s with i := i, pc := pc } :=
  ⟨fun _ => rfl, ⟨rfl, rfl⟩, ⟨rfl, rfl⟩, fun _ => rfl, fun _ _ => rfl, fun _ => rfl, rfl⟩

/-- An instruction that advances and assigns `I` a value with a given property. -/
theorem exists_next_setIndex (s : State) {value : Word} {p : Word → Prop} (h : p value) :
    ∃ t, (.next { s.advance Config.hardware with i := value } : Result) = .next t ∧ PcBy 2 s t ∧ OnlyIndex s t ∧
      p t.i :=
  ⟨_, rfl, toNat_nextPc_mask s.pc, onlyIndex_setIndex s _ _, h⟩

theorem toNat_add_zeroExtend (i : Word) (b : Byte) : (i + b.zeroExtend 16).toNat = (i.toNat + b.toNat) % 0x10000 := by
  rw [BitVec.toNat_add, BitVec.toNat_setWidth_of_le (by decide)]

/-- The glyph of a digit is five bytes long, digit 0 first (R67). -/
theorem toNat_glyphAddr_lowNibble (b : Byte) : (glyphAddr (lowNibble b)).toNat = 5 * (b.toNat % 16) := by
  simp only [glyphAddr, lowNibble, fontBase, glyphBytes, BitVec.toNat_ofNat, BitVec.extractLsb'_toNat,
    Nat.shiftRight_zero]
  omega

/-- Settles O24: the field is zero-extended. -/
theorem loadIndexSetsI : Obligations.LoadIndexSetsI := fun nnn s =>
  ⟨decodeWord_encodeWord (i := .ldI nnn) rfl, exists_next_setIndex s (p := (· = nnn.setWidth 16)) (toWord_addr nnn)⟩

/-- Settles O25: the sum is modulo 65536, and only `I` is assigned. -/
theorem addToIndexWrapsAt16Bits : Obligations.AddToIndexWrapsAt16Bits := fun x s =>
  ⟨decodeWord_encodeWord (i := .addI x) rfl,
    exists_next_setIndex s (p := (·.toNat = (s.i.toNat + (s.reg x).toNat) % 0x10000)) (toNat_add_zeroExtend ..)⟩

/-- Settles O26: the address assigned is that of the glyph of the low nibble. -/
theorem loadFontPointsAtTheGlyph : Obligations.LoadFontPointsAtTheGlyph := fun x s =>
  ⟨decodeWord_encodeWord (i := .ldF x) rfl,
    exists_next_setIndex s (p := (·.toNat = 5 * ((s.reg x).toNat % 16))) (toNat_glyphAddr_lowNibble ..)⟩

end Sys2Proof.Machine
end

section
/-! SUPPORT. The display (43_display.md R200 to R203). `DrawSprite` inverts the pixels of one list, those under the
1-bits in drawing order. A sprite of at most 32 rows covers no pixel twice, so each pixel of the list is inverted once, and the
collision is that one of them was on before the draw. -/

namespace Sys2Proof.Machine

/-! ## Inverting the pixels of a list -/

/-- Invert one pixel and record a collision: what `drawColumn` does under a 1-bit. -/
def invert (d : Drawing) (p : Fin 64 × Fin 32) : Drawing :=
  (Framebuffer.flip d.1 p.1 p.2, d.2 || Framebuffer.pixel d.1 p.1 p.2)

theorem pixel_invert_other {p q : Fin 64 × Fin 32} (h : q ≠ p) (d : Drawing) :
    Framebuffer.pixel (invert d p).1 q.1 q.2 = Framebuffer.pixel d.1 q.1 q.2 := by
  rw [invert, Framebuffer.pixel_flip, if_neg fun same => h (Prod.ext same.1 same.2)]

theorem pixel_foldl_invert_not_mem {q : Fin 64 × Fin 32} : ∀ {l : List (Fin 64 × Fin 32)}, q ∉ l → ∀ d : Drawing,
    Framebuffer.pixel (l.foldl invert d).1 q.1 q.2 = Framebuffer.pixel d.1 q.1 q.2
  | [], _, _ => rfl
  | p :: l, h, d => by
    obtain ⟨other, outside⟩ := List.ne_and_not_mem_of_not_mem_cons h
    rw [List.foldl_cons, pixel_foldl_invert_not_mem outside, pixel_invert_other other]

theorem pixel_foldl_invert_mem {q : Fin 64 × Fin 32} : ∀ {l : List (Fin 64 × Fin 32)}, l.Nodup → q ∈ l → ∀ d : Drawing,
    Framebuffer.pixel (l.foldl invert d).1 q.1 q.2 = !(Framebuffer.pixel d.1 q.1 q.2)
  | p :: l, nodup, h, d => by
    obtain ⟨once, nodup⟩ := List.nodup_cons.mp nodup
    rw [List.foldl_cons]
    obtain rfl | inside := List.mem_cons.mp h
    · rw [pixel_foldl_invert_not_mem once, invert, Framebuffer.pixel_flip, if_pos ⟨rfl, rfl⟩]
    · rw [pixel_foldl_invert_mem nodup inside, pixel_invert_other (ne_of_mem_of_not_mem inside once)]

/-- No pixel is inverted before its turn, so the collision speaks of the pixels before the draw. -/
theorem collision_foldl_invert : ∀ {l : List (Fin 64 × Fin 32)}, l.Nodup → ∀ d : Drawing,
    ((l.foldl invert d).2 = true ↔ d.2 = true ∨ ∃ q ∈ l, Framebuffer.pixel d.1 q.1 q.2 = true)
  | [], _, d => by simp
  | p :: l, nodup, d => by
    obtain ⟨once, nodup⟩ := List.nodup_cons.mp nodup
    have untouched : (∃ q ∈ l, Framebuffer.pixel (invert d p).1 q.1 q.2 = true) ↔
        ∃ q ∈ l, Framebuffer.pixel d.1 q.1 q.2 = true :=
      exists_congr fun q => and_congr_right fun inside => by
        rw [pixel_invert_other (ne_of_mem_of_not_mem inside once)]
    rw [List.foldl_cons, collision_foldl_invert nodup, untouched, List.exists_mem_cons_iff, invert, Bool.or_eq_true,
      or_assoc]

/-! ## The pixels a sprite covers -/

/-- The pixels under the 1-bits of the sprite byte `b` drawn as row `r`, column 0 first. -/
def rowPixels (x0 y0 : Byte) (b : Byte) (r : Nat) : List (Fin 64 × Fin 32) :=
  ((List.range 8).filter (spriteBit b)).map fun c => (column x0 c, row y0 r)

/-- The pixels under the 1-bits of the sprite rows from row `r` on, in drawing order. -/
def spritePixels (x0 y0 : Byte) (rows : List Byte) (r : Nat) : List (Fin 64 × Fin 32) :=
  (rows.zipIdx r).flatMap fun p => rowPixels x0 y0 p.1 p.2

theorem drawRow_eq_foldl (x0 y0 : Byte) (r : Nat) (b : Byte) (d : Drawing) :
    drawRow x0 y0 r b d = (rowPixels x0 y0 b r).foldl invert d := by
  rw [rowPixels, List.foldl_map, List.foldl_filter]
  rfl

theorem drawRows_eq_foldl (x0 y0 : Byte) : ∀ (rows : List Byte) (r : Nat) (d : Drawing),
    drawRows x0 y0 r rows d = (spritePixels x0 y0 rows r).foldl invert d
  | [], _, _ => rfl
  | b :: rest, r, d => by
    rw [drawRows, drawRows_eq_foldl x0 y0 rest, drawRow_eq_foldl, ← List.foldl_append, spritePixels, spritePixels,
      List.zipIdx_cons, List.flatMap_cons]

theorem drawSprite_eq_foldl (x0 y0 : Byte) (rows : List Byte) (fb : Framebuffer) :
    drawSprite x0 y0 rows fb = (spritePixels x0 y0 rows 0).foldl invert (fb, false) :=
  drawRows_eq_foldl x0 y0 rows 0 _

theorem column_eq_iff {x0 : Byte} {c : Nat} {px : Fin 64} : column x0 c = px ↔ (x0.toNat + c) % 64 = px.val :=
  Fin.ext_iff

theorem row_eq_iff {y0 : Byte} {r : Nat} {py : Fin 32} : row y0 r = py ↔ (y0.toNat + r) % 32 = py.val :=
  Fin.ext_iff

theorem mem_rowPixels {x0 y0 b : Byte} {r : Nat} {q : Fin 64 × Fin 32} :
    q ∈ rowPixels x0 y0 b r ↔ ∃ c, c < 8 ∧ spriteBit b c = true ∧ column x0 c = q.1 ∧ row y0 r = q.2 := by
  simp [rowPixels, Prod.ext_iff, and_assoc]

theorem mem_spritePixels {x0 y0 : Byte} {rows : List Byte} {px : Fin 64} {py : Fin 32} :
    (px, py) ∈ spritePixels x0 y0 rows 0 ↔ Covers x0 y0 rows px py := by
  simp only [spritePixels, List.mem_flatMap, Prod.exists, List.mk_mem_zipIdx_iff_getElem?, mem_rowPixels, column_eq_iff,
    row_eq_iff, spriteBit, Covers]
  constructor
  · rintro ⟨b, r, listed, c, covers⟩
    obtain ⟨h, rfl⟩ := List.getElem?_eq_some_iff.mp listed
    exact ⟨r, c, h, covers⟩
  · rintro ⟨r, c, h, covers⟩
    exact ⟨rows[r], r, List.getElem?_eq_getElem h, c, covers⟩

/-- The eight columns of a row are different columns of the grid. -/
theorem nodup_rowPixels (x0 y0 b : Byte) (r : Nat) : (rowPixels x0 y0 b r).Nodup := by
  refine (List.nodup_range.filter _).map_on fun c hc c' hc' same => ?_
  have hc : c < 8 := List.mem_range.mp (List.mem_of_mem_filter hc)
  have hc' : c' < 8 := List.mem_range.mp (List.mem_of_mem_filter hc')
  have : (x0.toNat + c) % 64 = (x0.toNat + c') % 64 := column_eq_iff.mp (congrArg Prod.fst same)
  omega

/-- Two rows of a sprite of at most 32 rows are different rows of the grid. -/
theorem row_ne_row (y0 : Byte) {r r' : Nat} (lt : r < r') (h : r' < 32) : row y0 r ≠ row y0 r' := by
  intro same
  have : (y0.toNat + r) % 32 = (y0.toNat + r') % 32 := row_eq_iff.mp same
  omega

theorem nodup_spritePixels (x0 y0 : Byte) {rows : List Byte} (h : rows.length ≤ 32) :
    (spritePixels x0 y0 rows 0).Nodup := by
  have rising : rows.zipIdx.Pairwise fun p p' => p.2 < p'.2 := by
    rw [← List.pairwise_map (f := Prod.snd), List.zipIdx_map_snd]
    exact List.pairwise_lt_range'
  refine List.nodup_flatMap.mpr ⟨fun p _ => nodup_rowPixels x0 y0 p.1 p.2, rising.imp_of_mem ?_⟩
  intro p p' _ listed lt q hq hq'
  obtain ⟨c, -, -, -, on_row⟩ := mem_rowPixels.mp hq
  obtain ⟨c', -, -, -, on_row'⟩ := mem_rowPixels.mp hq'
  have := List.snd_lt_of_mem_zipIdx listed
  exact row_ne_row y0 lt (by omega) (on_row.trans on_row'.symm)

/-! ## DrawSprite (R201, R203) -/

/-- Settles O33: the covered pixels are those of a list without repetition, and drawing inverts each of them. -/
theorem drawSpriteXorsTheCoveredPixels : Obligations.DrawSpriteXorsTheCoveredPixels := by
  intro x0 y0 rows fb h
  have nodup := nodup_spritePixels x0 y0 (rows := rows) (by omega)
  simp only [drawSprite_eq_foldl, ← mem_spritePixels]
  refine ⟨fun px py => ⟨fun covered => ?_, fun outside => ?_⟩, ?_⟩
  · exact pixel_foldl_invert_mem nodup covered _
  · exact pixel_foldl_invert_not_mem outside _
  · simp [collision_foldl_invert nodup]

theorem Framebuffer.ext_pixel {fb fb' : Framebuffer} (h : ∀ x y, Framebuffer.pixel fb x y = Framebuffer.pixel fb' x y) :
    fb = fb' :=
  Vector.ext fun y hy => Vector.ext fun x hx => h ⟨x, hx⟩ ⟨y, hy⟩

/-- Settles O34: both draws cover the same pixels, so each of them is inverted twice, and the second draw finds on
those that were off. -/
theorem drawingTwiceRestoresTheScreen : Obligations.DrawingTwiceRestoresTheScreen := by
  intro x0 y0 rows fb h
  obtain ⟨first, -⟩ := drawSpriteXorsTheCoveredPixels x0 y0 rows fb h
  obtain ⟨second, collision⟩ := drawSpriteXorsTheCoveredPixels x0 y0 rows (drawSprite x0 y0 rows fb).1 h
  constructor
  · refine Framebuffer.ext_pixel fun px py => ?_
    by_cases covered : Covers x0 y0 rows px py
    · rw [(second px py).1 covered, (first px py).1 covered, Bool.not_not]
    · rw [(second px py).2 covered, (first px py).2 covered]
  · rw [collision]
    refine exists_congr fun px => exists_congr fun py => and_congr_right fun covered => ?_
    rw [(first px py).1 covered, Bool.not_eq_true']

/-- The collision is that a pixel goes from on to off. -/
theorem collision_iff_on_to_off (x0 y0 : Byte) {rows : List Byte} (fb : Framebuffer) (h : rows.length ≤ 15) :
    (drawSprite x0 y0 rows fb).2 = true ↔ ∃ px py, Framebuffer.pixel fb px py = true ∧
      Framebuffer.pixel (drawSprite x0 y0 rows fb).1 px py = false := by
  obtain ⟨drawn, collision⟩ := drawSpriteXorsTheCoveredPixels x0 y0 rows fb h
  rw [collision]
  refine exists_congr fun px => exists_congr fun py => ?_
  by_cases covered : Covers x0 y0 rows px py
  · simp [covered, (drawn px py).1 covered]
  · simp [covered, (drawn px py).2 covered]

/-! ## The instructions (R200, R202) -/

/-- Settles O35: DRW completes with the drawing of the bytes at `I`, of which there are at most 15, and writes the
collision to `VF` only. -/
theorem drawReportsTheCollision : Obligations.DrawReportsTheCollision := by
  intro x y n s
  have rows : (bytesAtI s n.toNat).length ≤ 15 := by
    simp only [bytesAtI, List.length_map, List.length_range]
    omega
  obtain ⟨drawn, -⟩ := drawSpriteXorsTheCoveredPixels (s.reg x) (s.reg y) _ s.fb rows
  have collision := collision_iff_on_to_off (s.reg x) (s.reg y) s.fb rows
  refine ⟨decodeWord_encodeWord (i := .drw x y n) rfl, _, execDrw_eq x y n s, toNat_nextPc_mask s.pc, rfl, ⟨rfl, rfl⟩,
    ⟨rfl, rfl⟩, fun _ => rfl, fun _ => rfl, rfl, drawn, fun r other => State.reg_setReg_other _ _ other,
    fun went_off => ?_, fun none_off => ?_⟩
  · rw [State.reg_setReg_same, collision.mpr went_off]
    rfl
  · have silent : (drawSprite (s.reg x) (s.reg y) (bytesAtI s n.toNat) s.fb).2 = false :=
      Bool.eq_false_iff.mpr fun collides => by
        obtain ⟨px, py, off⟩ := collision.mp collides
        exact none_off px py off
    rw [State.reg_setReg_same, silent]
    rfl

theorem onlyScreen_setScreen (s : State) (fb : Framebuffer) (pc : Word) : OnlyScreen s { s with fb := fb, pc := pc } :=
  ⟨fun _ => rfl, rfl, ⟨rfl, rfl⟩, ⟨rfl, rfl⟩, fun _ => rfl, fun _ => rfl, rfl⟩

/-- Settles O32: CLS advances and replaces the screen by the clear one. -/
theorem clsTurnsEveryPixelOff : Obligations.ClsTurnsEveryPixelOff :=
  ⟨decodeWord_encodeWord (i := .cls) rfl, fun s => ⟨_, rfl, toNat_nextPc_mask s.pc, onlyScreen_setScreen s _ _,
    Framebuffer.pixel_clear⟩⟩

end Sys2Proof.Machine
end

section
/-! SUPPORT. The keys and the timers as instructions see them (44_input_timers.md R220 to R226). The key wait turns on
two facts: which number `State.lowestKey` is, and when the state is pending. -/

namespace Sys2Proof.Machine

/-! ## Skips on a key (R220, R221) -/

/-- The key number of SKP and SKNP is the register's value modulo 16 (R227). -/
theorem eq_lowNibble {b : Byte} {k : Nibble} (low : k.toNat = b.toNat % 16) : k = lowNibble b := by
  apply BitVec.eq_of_toNat_eq
  rw [lowNibble, BitVec.extractLsb'_toNat, Nat.shiftRight_zero, low]

/-- Settles O36: the condition is the level of the key of the low nibble. -/
theorem skipsOnAKey : Obligations.SkipsOnAKey := by
  refine fun x s => ⟨decodeWord_encodeWord (i := .skp x) rfl, decodeWord_encodeWord (i := .sknp x) rfl,
    fun k low => ?_⟩
  obtain rfl := eq_lowNibble low
  exact ⟨exists_next_skipIf s Iff.rfl, exists_next_skipIf s (by rw [Bool.not_eq_true'])⟩

/-! ## The lowest key (R222, decision D10) -/

/-- A key that is down, with none below it, is the lowest key. -/
theorem lowestKey_eq_some {s : State} {k : Nibble} (down : s.key k = true)
    (lowest : ∀ j : Nibble, j.toNat < k.toNat → s.key j = false) : s.lowestKey = some k.toNat := by
  cases found : s.lowestKey with
  | none => simp [(lowestKey_none s).mp found k] at down
  | some n =>
    obtain ⟨bound, n_down, n_lowest⟩ := lowestKey_some found
    have toNat_n : (BitVec.ofNat 4 n).toNat = n := Nat.mod_eq_of_lt bound
    have not_below : ¬ n < k.toNat := fun below => by
      simp [lowest _ (toNat_n.trans_lt below)] at n_down
    have not_above : ¬ k.toNat < n := fun above => by
      simpa [down] using n_lowest k.toNat above
    exact congrArg some (by omega)

/-- A press with no key down makes that key the lowest one down. -/
theorem lowestKey_setPressed_of_no_key {s : State} (noKey : ∀ k, s.key k = false) (k : Nibble) :
    (s.setPressed k true).lowestKey = some k.toNat := by
  refine lowestKey_eq_some (by simp [State.key_setPressed]) fun j below => ?_
  rw [State.key_setPressed, if_neg (ne_of_apply_ne BitVec.toNat below.ne), noKey]

/-- A release with no key down leaves none down. -/
theorem key_setPressed_false_of_no_key {s : State} (noKey : ∀ k, s.key k = false) (k q : Nibble) :
    (s.setPressed k false).key q = false := by
  simp [State.key_setPressed, noKey]

/-! ## LD Vx,K (R222) -/

theorem exec_ldVxK_of_no_key (x : Reg) {s : State} (noKey : ∀ k, s.key k = false) :
    exec (.ldVxK x) s = .next s := by
  simp only [exec, execLdVxK, (lowestKey_none s).mpr noKey]

theorem exists_next_ldVxK (x : Reg) {s : State} {k : Nibble} (lowest : s.lowestKey = some k.toNat) :
    ∃ t, exec (.ldVxK x) s = .next t ∧ PcBy 2 s t ∧ OnlyRegs s t ∧
      ∀ r, (t.reg r).toNat = if r = x then k.toNat else (s.reg r).toNat := by
  have stored : exec (.ldVxK x) s =
      .next ((s.advance Config.hardware).setReg x (BitVec.ofNat 8 k.toNat)) := by
    simp only [exec, execLdVxK, lowest]
  obtain ⟨t, ran, pc, frame, regs⟩ := exists_next_setReg s x (BitVec.ofNat 8 k.toNat)
  have toNat_k : (BitVec.ofNat 8 k.toNat).toNat = k.toNat := Nat.mod_eq_of_lt (by omega)
  refine ⟨t, stored.trans ran, pc, frame, fun r => ?_⟩
  rw [regs, apply_ite BitVec.toNat, toNat_k]

/-! ## Awaiting a key (R223) -/

theorem isKeyWait_iff {i : Instr} : isKeyWait i = true ↔ ∃ x, i = .ldVxK x := by
  cases i <;> simp [isKeyWait]

theorem State.pending_of_decodeWord_none {s : State} (unknown : decodeWord (wordAtPc s) = none) :
    s.pending = false := by
  have fetched : s.fetch Config.hardware = .ok (wordAtPc s) := rfl
  simp only [State.pending, fetched, unknown]

theorem State.pending_of_decodeWord {s : State} {i : Instr} (decoded : decodeWord (wordAtPc s) = some i) :
    s.pending = (isKeyWait i && s.lowestKey.isNone) := by
  have fetched : s.fetch Config.hardware = .ok (wordAtPc s) := rfl
  simp only [State.pending, fetched, decoded]

/-- A state is pending exactly when its word is LD Vx,K and no key is down. -/
theorem State.pending_iff (s : State) :
    s.pending = true ↔ (∃ x, decodeWord (wordAtPc s) = some (.ldVxK x)) ∧ ∀ k, s.key k = false := by
  cases decoded : decodeWord (wordAtPc s) with
  | none => simp [State.pending_of_decodeWord_none decoded]
  | some i =>
    rw [State.pending_of_decodeWord decoded, Bool.and_eq_true, isKeyWait_iff, Option.isNone_iff_eq_none, lowestKey_none]
    simp only [Option.some.injEq]

/-- Settles O37: the state is pending exactly in the first case, and the block's step event replies by that. -/
theorem keyWaitHoldsUntilAKeyIsDown : Obligations.KeyWaitHoldsUntilAKeyIsDown := by
  intro x s
  obtain ⟨-, reply⟩ := stepRunsTheDecodedInstruction s
  refine ⟨decodeWord_encodeWord (i := .ldVxK x) rfl, fun noKey => ?_, fun k down below => ?_⟩
  · have waited := exec_ldVxK_of_no_key x noKey
    refine ⟨waited, fun sys machine decoded => ?_⟩
    obtain ⟨-, waiting⟩ := reply sys s machine ((step_of_decodeWord decoded).trans waited)
    rw [waiting ((State.pending_iff s).mpr ⟨⟨x, decoded⟩, noKey⟩), ← machine]
  · have lowest := lowestKey_eq_some down below
    obtain ⟨t, ran, pc, frame, regs⟩ := exists_next_ldVxK x lowest
    refine ⟨t, ran, pc, frame, regs, fun sys machine decoded => ?_⟩
    obtain ⟨running, -⟩ := reply sys t machine ((step_of_decodeWord decoded).trans ran)
    exact running (by simp [State.pending_of_decodeWord decoded, lowest])

/-- Settles O38: a tick and a key event leave the word at `PC` alone, and only a press changes that no key is down. -/
theorem onlyAKeyPressEndsTheWait : Obligations.OnlyAKeyPressEndsTheWait := by
  refine fun s => ⟨State.pending_iff s, fun pending => ?_⟩
  obtain ⟨⟨x, decoded⟩, noKey⟩ := (State.pending_iff s).mp pending
  refine ⟨(step_of_decodeWord decoded).trans (exec_ldVxK_of_no_key x noKey),
    (State.pending_iff s.tick).mpr ⟨⟨x, decoded⟩, noKey⟩, fun k => ⟨?_, ?_, ?_⟩⟩
  · exact (State.pending_iff _).mpr ⟨⟨x, decoded⟩, key_setPressed_false_of_no_key noKey k⟩
  · have pressed : decodeWord (wordAtPc (s.setPressed k true)) = some (.ldVxK x) := decoded
    simp [State.pending_of_decodeWord pressed, lowestKey_setPressed_of_no_key noKey]
  · obtain ⟨t, ran, pc, -, regs⟩ := exists_next_ldVxK x (lowestKey_setPressed_of_no_key noKey k)
    exact ⟨x, t, decoded, (step_of_decodeWord (s := s.setPressed k true) decoded).trans ran, pc,
      (regs x).trans (if_pos rfl)⟩

/-! ## Timer moves (R224 to R226) -/

theorem onlyTimers_setTimers (s : State) (dt st : Byte) (pc : Word) :
    OnlyTimers s { s with dt := dt, st := st, pc := pc } :=
  ⟨fun _ => rfl, rfl, ⟨rfl, rfl⟩, fun _ => rfl, fun _ _ => rfl, fun _ => rfl, rfl⟩

/-- The output `tone` is on exactly when `ST` is not 0 (R252). -/
theorem State.tone_iff (s : State) : s.tone = true ↔ s.st ≠ 0x00#8 := bne_iff_ne

/-- Settles O39: one move writes a register, the other two write one timer each. -/
theorem timerMovesCopyOneByte : Obligations.TimerMovesCopyOneByte := fun x s =>
  ⟨decodeWord_encodeWord (i := .ldVxDt x) rfl, decodeWord_encodeWord (i := .ldDtVx x) rfl,
    decodeWord_encodeWord (i := .ldStVx x) rfl, exists_next_setReg s x s.dt,
    ⟨_, rfl, toNat_nextPc_mask s.pc, onlyTimers_setTimers s _ _ _, rfl, rfl⟩,
    ⟨_, rfl, toNat_nextPc_mask s.pc, onlyTimers_setTimers s _ _ _, rfl, rfl, State.tone_iff _⟩⟩

end Sys2Proof.Machine
end

section
/-! SUPPORT. Faults and the events of the other agents (60_exceptions.md). The relation `Cause` says for which reason an
instruction raises which fault; nothing that it names is a timer or a key, so a fault recurs whatever ticks and key
events come after it. -/

namespace Sys2Proof.Machine

/-! ## When the shared operations fault -/

theorem jumpTo_fault {target : Nat} {i : Instr} {s : State} {f : Fault} (h : jumpTo target i s = .fault f) :
    target % 2 = 1 ∧ f = .misalignedPC (toWord target) (encodeWord i) s.pc := by
  obtain even | odd := Nat.mod_two_eq_zero_or_one target
  · rw [jumpTo_of_even even] at h
    cases h
  · rw [jumpTo_of_odd odd] at h
    cases h
    exact ⟨odd, rfl⟩

/-- Of the `n` masked addresses from `I` on, the first that is protected is that of `I + k` (R65, R257). -/
def State.FirstProtected (s : State) (n k : Nat) : Prop :=
  k < n ∧ (s.i.toNat + k) % memSize < progBase ∧ ∀ j, j < k → progBase ≤ (s.i.toNat + j) % memSize

theorem State.exists_firstProtected {s : State} {n : Nat}
    (h : ¬ ∀ k, k < n → progBase ≤ (s.i.toNat + k) % memSize) : ∃ k, s.FirstProtected n k := by
  have some_protected : ∃ k, k < n ∧ (s.i.toNat + k) % memSize < progBase := by simpa using h
  obtain ⟨inside, below⟩ := Nat.find_spec some_protected
  refine ⟨Nat.find some_protected, inside, below, fun j earlier => ?_⟩
  exact Nat.not_lt.mp fun lower => Nat.find_min some_protected earlier ⟨earlier.trans inside, lower⟩

theorem storeAtI_of_firstProtected {bytes : List Byte} {s : State} {k : Nat} (i : Instr)
    (first : s.FirstProtected bytes.length k) :
    storeAtI bytes i s Config.hardware =
      .fault (.protectedWrite (BitVec.ofNat 16 ((s.i.toNat + k) % memSize)) (encodeWord i) s.pc) := by
  obtain ⟨inside, below, earlier⟩ := first
  exact storeAtI_of_protected i inside below earlier

/-- A store at `I` faults only at a protected address (R247): without one it completes. -/
theorem storeAtI_fault {bytes : List Byte} {i : Instr} {s : State} {f : Fault}
    (h : storeAtI bytes i s Config.hardware = .fault f) :
    ∃ k, s.FirstProtected bytes.length k ∧
      f = .protectedWrite (BitVec.ofNat 16 ((s.i.toNat + k) % memSize)) (encodeWord i) s.pc := by
  by_cases writable : ∀ k, k < bytes.length → progBase ≤ (s.i.toNat + k) % memSize
  · rw [storeAtI_of_stored i (storeBytes_mask s.mem writable)] at h
    cases h
  · obtain ⟨k, first⟩ := State.exists_firstProtected writable
    rw [storeAtI_of_firstProtected i first] at h
    cases h
    exact ⟨k, first, rfl⟩

theorem execCall_of_outOfRange {nnn : Addr} {s : State} (even : nnn.toNat % 2 = 0) (above : 16 < s.sp.toNat) :
    execCall nnn s = .refused (.stackPointerOutOfRange s.sp) := by
  have pushed : (s.advance Config.hardware).push (s.advance Config.hardware).pc = .error (.outOfRange s.sp) :=
    State.push_outOfRange above
  have even' : isEven nnn.toNat = true := by simp [isEven, even]
  rw [execCall, if_pos even', pushed]
  rfl

theorem execRet_of_outOfRange {s : State} (above : 16 < s.sp.toNat) :
    execRet s = .refused (.stackPointerOutOfRange s.sp) := by
  have popped : (s.advance Config.hardware).pop = .error (.outOfRange s.sp) := State.pop_outOfRange above
  rw [execRet, popped]
  rfl

/-! ## The cause of a fault -/

/-- The causes of the faults of this hardware's instructions, each with the report it makes (R242 to R247). -/
inductive Cause (s : State) : Instr → Fault → Prop where
  | sys {nnn : Addr} : Cause s (.sys nnn) (.unknownOpcode (encodeWord (.sys nnn)) s.pc)
  | jp {nnn : Addr} (odd : nnn.toNat % 2 = 1) :
      Cause s (.jp nnn) (.misalignedPC (toWord nnn.toNat) (encodeWord (.jp nnn)) s.pc)
  | call {nnn : Addr} (odd : nnn.toNat % 2 = 1) :
      Cause s (.call nnn) (.misalignedPC (toWord nnn.toNat) (encodeWord (.call nnn)) s.pc)
  | jpV0 {nnn : Addr} (odd : (nnn.toNat + (s.reg 0x0#4).toNat) % memSize % 2 = 1) :
      Cause s (.jpV0 nnn) (.misalignedPC (toWord ((nnn.toNat + (s.reg 0x0#4).toNat) % memSize))
        (encodeWord (.jpV0 nnn)) s.pc)
  | overflow {nnn : Addr} (even : nnn.toNat % 2 = 0) (full : s.sp.toNat = 16) :
      Cause s (.call nnn) (.stackOverflow (encodeWord (.call nnn)) s.pc)
  | underflow (empty : s.sp.toNat = 0) : Cause s .ret (.stackUnderflow (encodeWord .ret) s.pc)
  | bcd {x : Reg} {k : Nat} (first : s.FirstProtected (bcdDigits (s.reg x)).length k) :
      Cause s (.ldB x) (.protectedWrite (BitVec.ofNat 16 ((s.i.toNat + k) % memSize)) (encodeWord (.ldB x)) s.pc)
  | dump {x : Reg} {k : Nat} (first : s.FirstProtected (s.regsUpTo x).length k) :
      Cause s (.ldMemVx x)
        (.protectedWrite (BitVec.ofNat 16 ((s.i.toNat + k) % memSize)) (encodeWord (.ldMemVx x)) s.pc)

section
variable {i : Instr} {s : State} {f : Fault}

/-- CALL faults by its target, which is tested first, or by the full stack (R123, R257). -/
theorem execCall_cause {nnn : Addr} (ran : execCall nnn s = .fault f) : Cause s (.call nnn) f := by
  obtain even | odd := Nat.mod_two_eq_zero_or_one nnn.toNat
  · obtain room | full | above := Nat.lt_trichotomy s.sp.toNat 16
    · cases (execCall_of_even even room).symm.trans ran
    · cases (execCall_of_full even full).symm.trans ran
      exact .overflow even full
    · cases (execCall_of_outOfRange even above).symm.trans ran
  · cases (execCall_of_odd odd s).symm.trans ran
    exact .call odd

/-- RET faults by the empty stack (R121). -/
theorem execRet_cause (ran : execRet s = .fault f) : Cause s .ret f := by
  cases live : s.sp.toNat with
  | zero =>
    cases (execRet_of_empty live).symm.trans ran
    exact .underflow live
  | succ k =>
    by_cases inRange : k < 16
    · cases (execRet_of_eq inRange live).symm.trans ran
    · cases (execRet_of_outOfRange (by omega)).symm.trans ran

theorem execLdVxK_ne_fault (x : Reg) (s : State) (f : Fault) : execLdVxK x s ≠ .fault f := by
  unfold execLdVxK
  split <;> nofun

/-- Every fault of an instruction has one of the causes. -/
theorem exec_cause (ran : exec i s = .fault f) : Cause s i f := by
  cases i with
  | sys => cases ran; exact .sys
  | jp => obtain ⟨odd, rfl⟩ := jumpTo_fault ran; exact .jp odd
  | jpV0 => obtain ⟨odd, rfl⟩ := jumpTo_fault ran; exact .jpV0 odd
  | call => exact execCall_cause ran
  | ret => exact execRet_cause ran
  | ldB => obtain ⟨k, first, rfl⟩ := storeAtI_fault ran; exact .bcd first
  | ldMemVx => obtain ⟨k, first, rfl⟩ := storeAtI_fault ran; exact .dump first
  | ldVxK x => exact absurd ran (execLdVxK_ne_fault x s f)
  | drw x y n => cases (execDrw_eq x y n s).symm.trans ran
  | ldVxMem x => cases (execLdVxMem_eq x s).symm.trans ran
  | _ => cases ran

/-- And each cause raises its fault. -/
theorem Cause.exec_eq (cause : Cause s i f) : exec i s = .fault f := by
  cases cause with
  | sys => rfl
  | jp odd | jpV0 odd => exact jumpTo_of_odd odd _ s
  | call odd => exact execCall_of_odd odd s
  | overflow even full => exact execCall_of_full even full
  | underflow empty => exact execRet_of_empty empty
  | bcd first | dump first => exact storeAtI_of_firstProtected _ first

/-! ## The fault of a step -/

theorem step_of_decodeWord_none (unknown : decodeWord (wordAtPc s) = none) :
    step s = .fault (.unknownOpcode (wordAtPc s) s.pc) := by
  rw [step_eq, unknown]
  rfl

/-- A step that faults met an unknown word, or ran an instruction that faults. -/
theorem step_fault (h : step s = .fault f) :
    (decodeWord (wordAtPc s) = none ∧ f = .unknownOpcode (wordAtPc s) s.pc) ∨
      ∃ i, decodeWord (wordAtPc s) = some i ∧ exec i s = .fault f := by
  cases decoded : decodeWord (wordAtPc s) with
  | none =>
    cases (step_of_decodeWord_none decoded).symm.trans h
    exact .inl ⟨rfl, rfl⟩
  | some i => exact .inr ⟨i, rfl, (step_of_decodeWord decoded).symm.trans h⟩

end

/-- Settles O7: SYS reports the word of its instruction, which is the word that was decoded. -/
theorem unknownAndSysWordsRaiseUnknownOpcode : Obligations.UnknownAndSysWordsRaiseUnknownOpcode := by
  rintro s (unknown | ⟨nnn, decoded⟩)
  · exact step_of_decodeWord_none unknown
  · obtain ⟨-, word⟩ := decodedWordIsTheWordOfItsInstruction _ _ decoded
    rw [step_of_decodeWord decoded, ← word]
    rfl

/-- A misaligned target below `0x1000` is reported as it is (R246). -/
theorem toWord_odd {a : Nat} (odd : a % 2 = 1) (inside : a < 0x1000) :
    (toWord a).toNat % 2 = 1 ∧ (toWord a).toNat < 0x1000 := by
  rw [toNat_toWord (by omega)]
  exact ⟨odd, inside⟩

/-- The address that a failed store reports is protected (R247). -/
theorem State.FirstProtected.address {s : State} {n k : Nat} (first : s.FirstProtected n k) :
    (BitVec.ofNat 16 ((s.i.toNat + k) % memSize)).toNat < 0x200 := by
  obtain ⟨-, below, -⟩ := first
  exact Nat.lt_of_le_of_lt (Nat.mod_le _ _) below

/-- Settles O51, cause by cause: the word reported is the word of the instruction, and so the one that was decoded. -/
theorem everyFaultHasItsCause : Obligations.EveryFaultHasItsCause := by
  intro s f faulted
  obtain ⟨unknown, rfl⟩ | ⟨i, decoded, ran⟩ := step_fault faulted
  · exact .inl ⟨rfl, .inl unknown⟩
  obtain ⟨-, word⟩ := decodedWordIsTheWordOfItsInstruction _ _ decoded
  rw [← word] at decoded ⊢
  cases exec_cause ran with
  | sys => exact .inl ⟨rfl, .inr ⟨_, decoded⟩⟩
  | @jp nnn odd =>
    obtain ⟨odd, inside⟩ := toWord_odd odd nnn.isLt
    exact .inr (.inl ⟨_, rfl, odd, inside, nnn, .inl decoded⟩)
  | @call nnn odd =>
    obtain ⟨odd, inside⟩ := toWord_odd odd nnn.isLt
    exact .inr (.inl ⟨_, rfl, odd, inside, nnn, .inr (.inl decoded)⟩)
  | @jpV0 nnn odd =>
    obtain ⟨odd, inside⟩ := toWord_odd odd (Nat.mod_lt _ (by decide))
    exact .inr (.inl ⟨_, rfl, odd, inside, nnn, .inr (.inr decoded)⟩)
  | overflow even full => exact .inr (.inr (.inl ⟨rfl, full, _, decoded⟩))
  | underflow empty => exact .inr (.inr (.inr (.inl ⟨rfl, empty, decoded⟩)))
  | bcd first => exact .inr (.inr (.inr (.inr ⟨_, rfl, first.address, _, .inl decoded⟩)))
  | dump first => exact .inr (.inr (.inr (.inr ⟨_, rfl, first.address, _, .inr decoded⟩)))

/-! ## Ticks and key events (R250 to R253) -/

theorem toNat_tickTimer (t : Byte) : (tickTimer t).toNat = t.toNat - 1 := by
  unfold tickTimer
  split
  · subst t
    rfl
  · bv_omega

section
variable {sys : System} {s : State} (machine : sys.machine = some s)
include machine

theorem System.event_tick : sys.event .tick = (.ok, { sys with machine := some s.tick }) := by
  simp only [System.event, machine]

theorem System.event_setPressed (k : Nibble) (down : Bool) :
    sys.event (.setPressed k down) = (.ok, { sys with machine := some (s.setPressed k down) }) := by
  simp only [System.event, machine]

end

/-- Settles O40: a timer at 0 stays there, and no other element is assigned. -/
theorem tickCountsBothTimersTowardZero : Obligations.TickCountsBothTimersTowardZero := fun s =>
  ⟨toNat_tickTimer s.dt, toNat_tickTimer s.st, onlyTimers_setTimers s _ _ _, rfl, State.tone_iff s,
    fun _ machine => System.event_tick machine⟩

/-- Settles O41: the only element assigned is the vector of the keys, at one place. -/
theorem setPressedWritesOneKey : Obligations.SetPressedWritesOneKey := fun s k b =>
  ⟨fun q => State.key_setPressed s k q b, rfl, fun _ => rfl, rfl, ⟨rfl, rfl⟩, ⟨rfl, rfl⟩, fun _ => rfl,
    fun _ _ => rfl, rfl, fun _ machine => System.event_setPressed machine k b⟩

/-! ## A fault recurs (R241, R258) -/

section
variable {sys : System} {s : State} {f : Fault} {timer : Byte → Byte} {keys : Vector Bool 16 → Vector Bool 16}

theorem Cause.mapInputs {i : Instr} (cause : Cause s i f) : Cause (s.mapInputs timer keys) i f := by
  cases cause with
  | sys => exact .sys
  | jp odd => exact .jp odd
  | call odd => exact .call odd
  | jpV0 odd => exact .jpV0 (s := s.mapInputs timer keys) odd
  | overflow even full => exact .overflow even full
  | underflow empty => exact .underflow empty
  | bcd first => exact .bcd (s := s.mapInputs timer keys) first
  | dump first => exact .dump (s := s.mapInputs timer keys) first

/-- With other timers and keys a step raises the same fault: it fetches the same word, and the cause is still there. -/
theorem step_fault_mapInputs (h : step s = .fault f) : step (s.mapInputs timer keys) = .fault f := by
  obtain ⟨unknown, rfl⟩ | ⟨i, decoded, ran⟩ := step_fault h
  · exact step_of_decodeWord_none (s := s.mapInputs timer keys) unknown
  · exact (step_of_decodeWord (s := s.mapInputs timer keys) decoded).trans (exec_cause ran).mapInputs.exec_eq

/-- A step that faults keeps the state and the report. -/
theorem System.stepAt_fault (sys : System) (h : step s = .fault f) :
    sys.stepAt s = (.fault f, { sys with report := some f }) := by
  rw [System.stepAt, h]

/-- A tick or a key event at the block changes only timers and keys. -/
theorem System.event_outside {e : Event} (machine : sys.machine = some s) (outside : Outside e) :
    ∃ timer keys, (sys.event e).2 = { sys with machine := some (s.mapInputs timer keys) } := by
  obtain rfl | ⟨k, b, rfl⟩ := outside
  · exact ⟨_, _, by rw [System.event_tick machine, State.tick_eq_mapInputs]⟩
  · exact ⟨_, _, by rw [System.event_setPressed machine, State.setPressed_eq_mapInputs]⟩

/-- So do any of them one after the other. -/
theorem System.run_outside : ∀ (events : List Event) {sys : System} {s : State}, sys.machine = some s →
    (∀ e ∈ events, Outside e) →
    ∃ timer keys, sys.run events = { sys with machine := some (s.mapInputs timer keys) }
  | [], sys, s, machine, _ => ⟨id, id, show sys = { sys with machine := some s } by rw [← machine]⟩
  | e :: rest, sys, s, machine, outside => by
    obtain ⟨timer, keys, happened⟩ := System.event_outside machine (outside e List.mem_cons_self)
    have outside_rest : ∀ e' ∈ rest, Outside e' := fun e' mem => outside e' (List.mem_cons_of_mem e mem)
    obtain ⟨timer', keys', ran⟩ :=
      System.run_outside rest (sys := { sys with machine := some (s.mapInputs timer keys) }) rfl outside_rest
    refine ⟨timer' ∘ timer, keys' ∘ keys, ?_⟩
    rw [System.run, happened, ran]
    rfl

end

/-- Settles O52: after the fault the events change only timers and keys, and no cause of a fault is in those. -/
theorem faultChangesNothingAndRecurs : Obligations.FaultChangesNothingAndRecurs := by
  intro sys s f machine faulted
  have stopped : sys.event .step = (.fault f, { sys with report := some f }) :=
    (System.event_step machine).trans (System.stepAt_fault sys faulted)
  rw [stopped]
  refine ⟨rfl, fun events outside => ?_⟩
  obtain ⟨timer, keys, ran⟩ := System.run_outside events (sys := { sys with report := some f }) machine outside
  rw [ran]
  refine ⟨s.mapInputs timer keys, rfl, rfl, rfl, fun _ => rfl, rfl, ⟨rfl, rfl⟩, fun _ => rfl, fun _ _ => rfl, rfl,
    ?_⟩
  rw [System.event_step rfl, System.stepAt_fault _ (step_fault_mapInputs faulted)]

end Sys2Proof.Machine
end

section
/-! SUPPORT. Three choices that the spec leaves to the model: a stack pointer that never occurs is refused (log entry 8),
RND takes the byte of its own draw (log entry 5), and the block without a state answers nothing but a Reset (log entries 7
and 13). -/

namespace Sys2Proof.Machine

/-- Settles O12: neither `Pop` nor `Push` has an entry above the stack. -/
theorem stackPointerOutOfRangeIsRefused : Obligations.StackPointerOutOfRangeIsRefused :=
  fun _ _ above => ⟨execRet_of_outOfRange above, fun even => execCall_of_outOfRange even above⟩

/-- Settles O23: the one register written is the destination, and its byte is masked bit by bit. -/
theorem randomByteIsMasked : Obligations.RandomByteIsMasked := by
  intro x nn s
  have regs (r : Reg) : ((s.advance Config.hardware).setReg x (Config.rnd s.rndCount &&& nn)).reg r =
      if r = x then Config.rnd s.rndCount &&& nn else s.reg r := State.reg_setReg _ x r _
  refine ⟨decodeWord_encodeWord (i := .rnd x nn) rfl, _, rfl, toNat_nextPc_mask s.pc, rfl, rfl, ⟨rfl, rfl⟩,
    ⟨rfl, rfl⟩, fun _ => rfl, fun _ _ => rfl, fun _ => rfl, regs, fun k masked => ?_⟩
  have written : (Config.rnd s.rndCount &&& nn).getLsbD k = false := by
    rw [BitVec.getLsbD_and, masked, Bool.and_false]
  exact (congrArg (BitVec.getLsbD · k) ((regs x).trans (if_pos rfl))).trans written

/-! ## Reset at the block (R256, R280) -/

/-- Settles O44: an image of no bytes loads, and writes none. -/
theorem resetStateIsResetOfTheEmptyImage : Obligations.ResetStateIsResetOfTheEmptyImage := by
  have loaded : State.reset.mem.load [] progBase = some State.reset.mem :=
    Memory.load_eq_some.mpr ⟨by decide, rfl⟩
  exact State.resetWith_of_load State.reset.rndCount loaded

theorem System.event_reset_tooLarge (sys : System) {rom : List Byte} (tooLarge : 3584 < rom.length) :
    sys.event (.reset rom) = (.fault .loadTooLarge, ⟨none, some .loadTooLarge, sys.drawn⟩) := by
  simp only [System.event, State.resetWith_tooLarge _ tooLarge]

/-- A Reset whose image fits gives every block a state. -/
theorem System.exists_event_reset (sys : System) {rom : List Byte} (fits : rom.length ≤ 3584) :
    ∃ s, sys.event (.reset rom) = (.ok, ⟨some s, none, sys.drawn⟩) := by
  obtain ⟨answers, -⟩ := resetLeavesTheTabulatedState sys.drawn rom
  obtain ⟨s, ran, -⟩ := answers fits
  exact ⟨s, System.event_reset_next ran⟩

/-- Nothing but such a Reset gives a state to a block that has none. -/
theorem System.event_machine_none {sys : System} {e : Event} (stopped : sys.machine = none)
    (noFit : ∀ rom, e = .reset rom → 3584 < rom.length) : (sys.event e).2.machine = none := by
  cases e with
  | step | tick | setPressed => simp only [System.event, stopped]
  | reset rom => rw [System.event_reset_tooLarge sys (noFit rom rfl)]

/-- Settles O45: the block after the failed Reset has no state. -/
theorem failedResetLeavesNoState : Obligations.FailedResetLeavesNoState := by
  intro sys rom tooLarge
  rw [System.event_reset_tooLarge sys tooLarge]
  refine ⟨rfl, rfl, rfl, fun e noFit => System.event_machine_none rfl noFit, fun r fits => ?_⟩
  obtain ⟨s, answered⟩ := System.exists_event_reset ⟨none, some .loadTooLarge, sys.drawn⟩ fits
  rw [answered]
  exact ⟨rfl, rfl⟩

end Sys2Proof.Machine
end

section
/-! SUPPORT. The machine under `ADDR_POLICY = check` (60_exceptions.md R245, log entry 12): which accesses stay inside the
address space and which address of the others is reported, and that the advance of `PC` is 16 bits wide. -/

namespace Sys2Proof.Machine

/-! ## Accesses inside the address space, and beyond it -/

theorem effAddr_check_of_lt {a : Nat} (inside : a < memSize) : effAddr .check a = .ok a := if_pos inside

theorem effAddr_check_of_le {a : Nat} (beyond : memSize ≤ a) : effAddr .check a = .error a :=
  if_neg (Nat.not_lt.mpr beyond)

theorem readBytes_check_inside (m : Memory) : ∀ {n base : Nat}, base + n ≤ memSize →
    readBytes .check m base n = .ok ((List.range' base n).map m.read)
  | 0, _, _ => rfl
  | n + 1, base, fits => by
    have rest := readBytes_check_inside m (n := n) (base := base + 1) (by omega)
    simp only [readBytes, effAddr_check_of_lt (show base < memSize by omega), rest, List.range'_succ, List.map_cons]

/-- The first address beyond `0xFFF` is the base, or else `0x1000`. -/
theorem readBytes_check_beyond (m : Memory) : ∀ {n base : Nat}, 0 < n → memSize < base + n →
    readBytes .check m base n = .error (max base memSize)
  | n + 1, base, _, ends => by
    obtain inside | beyond := Nat.lt_or_ge base memSize
    · have rest := readBytes_check_beyond m (n := n) (base := base + 1) (by omega) (by omega)
      simp only [readBytes, effAddr_check_of_lt inside, rest, Nat.max_eq_right inside, Nat.max_eq_right inside.le]
    · simp only [readBytes, effAddr_check_of_le beyond, Nat.max_eq_left beyond]

theorem storeAddr_check_of_lt {a : Nat} (writable : progBase ≤ a) (inside : a < memSize) :
    storeAddr .check a = .ok a := by
  simp only [storeAddr, effAddr_check_of_lt inside, if_neg (Nat.not_lt.mpr writable)]

theorem storeAddr_check_of_le {a : Nat} (beyond : memSize ≤ a) : storeAddr .check a = .error (.outOfBounds a) := by
  simp only [storeAddr, effAddr_check_of_le beyond]

theorem storeAddrs_check_inside : ∀ {n base : Nat}, progBase ≤ base → base + n ≤ memSize →
    storeAddrs .check base n = .ok (List.range' base n)
  | 0, _, _, _ => rfl
  | n + 1, base, writable, fits => by
    have rest := storeAddrs_check_inside (n := n) (base := base + 1) (by omega) (by omega)
    simp only [storeAddrs, storeAddr_check_of_lt writable (show base < memSize by omega), rest, List.range'_succ]

/-- With no protected address before it, the first address beyond `0xFFF` is the failure. -/
theorem storeAddrs_check_beyond : ∀ {n base : Nat}, 0 < n → progBase ≤ base → memSize < base + n →
    storeAddrs .check base n = .error (.outOfBounds (max base memSize))
  | n + 1, base, _, writable, ends => by
    obtain inside | beyond := Nat.lt_or_ge base memSize
    · have rest := storeAddrs_check_beyond (n := n) (base := base + 1) (by omega) (by omega) (by omega)
      simp only [storeAddrs, storeAddr_check_of_lt writable inside, rest, Nat.max_eq_right inside,
        Nat.max_eq_right inside.le]
    · simp only [storeAddrs, storeAddr_check_of_le beyond, Nat.max_eq_left beyond]

/-! ## The advance of PC under any configuration -/

/-- An instruction that assigns no target and is no skip makes one advance, or waits for a key (R90). -/
theorem execUnder_pc {c : Config} {i : Instr} {s t : State} (noTransfer : ¬ Transfers i) (noSkip : ¬ Skips i)
    (ran : execUnder c i s = .next t) :
    t.pc = nextPc c.addrPolicy s.pc ∨ ((∃ x, i = .ldVxK x) ∧ s.lowestKey = none ∧ t = s) := by
  cases i with
  | jp | call | ret | jpV0 => exact absurd (by simp [Transfers]) noTransfer
  | seImm | sneImm | seReg | sneReg | skp | sknp => exact absurd (by simp [Skips]) noSkip
  | sys nnn =>
    simp only [execUnder, execSys] at ran
    split at ran <;> cases ran
    exact .inl rfl
  | drw x y n =>
    simp only [execUnder, execDrw] at ran
    split at ran <;> cases ran
    exact .inl rfl
  | ldVxMem x =>
    simp only [execUnder, execLdVxMem] at ran
    split at ran <;> cases ran
    exact .inl rfl
  | ldVxK x =>
    simp only [execUnder, execLdVxK] at ran
    split at ran <;> cases ran
    · exact .inr ⟨⟨x, rfl⟩, ‹_›, rfl⟩
    · exact .inl rfl
  | ldB | ldMemVx =>
    obtain ⟨mem, -, rfl⟩ := storeAtI_next ran
    exact .inl rfl
  | _ => cases ran; exact .inl rfl

section
variable {c : Config} {s : State} (check : c.addrPolicy = .check)
include check

/-! ## The fetch and PC -/

/-- Of the two addresses fetched at `PC > 0xFFE`, the second is beyond `0xFFF`. -/
theorem stepUnder_check_of_pc (beyond : s.pc.toNat > 0xFFE) :
    ∃ a, a > 0xFFF ∧ stepUnder c s = .fault (.outOfBounds a none s.pc) := by
  obtain inside | outside := Nat.lt_or_ge s.pc.toNat memSize
  · have second : memSize ≤ s.pc.toNat + 1 := by rw [memSize]; omega
    refine ⟨s.pc.toNat + 1, second, ?_⟩
    simp only [stepUnder, cycle, State.fetch, check, effAddr_check_of_lt inside, effAddr_check_of_le second]
  · refine ⟨s.pc.toNat, outside, ?_⟩
    simp only [stepUnder, cycle, State.fetch, check, effAddr_check_of_le outside]

theorem advance_pc_check : (s.advance c).pc = s.pc + 2#16 := by rw [State.advance_pc, check, nextPc_check]

/-- A skip on a condition that the model tests as `cond`. -/
theorem exists_next_skipIf_check {cond : Bool} {p : Prop} [Decidable p] (tested : cond = true ↔ p) :
    ∃ t, (.next (s.skipIf cond c) : Result) = .next t ∧ OnlyPc s t ∧
      t.pc = if p then s.pc + 4#16 else s.pc + 2#16 := by
  refine ⟨_, rfl, onlyPc_skipIf s cond c, ?_⟩
  rw [← if_congr tested rfl rfl, State.skipIf_pc, check, nextPc_check, nextPc_check, BitVec.add_assoc]
  rfl

/-- CALL pushes the advanced `PC` on top of the stack (R123). -/
theorem exists_next_call_check {nnn : Addr} {k : Fin 16} (even : nnn.toNat % 2 = 0) (count : s.sp.toNat = k.val) :
    ∃ t, execCall nnn s c = .next t ∧ t.stack[k] = s.pc + 2#16 := by
  have pushed : (s.advance c).push (s.advance c).pc = _ :=
    State.push_of_lt (s := s.advance c) (show s.sp.toNat < 16 by omega)
  have even' : isEven nnn.toNat = true := by simp [isEven, even]
  rw [execCall, if_pos even', pushed]
  refine ⟨_, rfl, ?_⟩
  simp [count, check, nextPc_check]

/-! ## What completes -/

theorem exists_next_storeAtI_check {bytes : List Byte} (i : Instr) (writable : progBase ≤ s.i.toNat)
    (fits : s.i.toNat + bytes.length ≤ memSize) : ∃ t, storeAtI bytes i s c = .next t := by
  rw [storeAtI, check, storeBytes, storeAddrs_check_inside writable fits]
  exact ⟨_, rfl⟩

/-- With its accesses inside the address space and above the protected bytes, every instruction that assigns no target
completes, but for SYS. -/
theorem exists_next_execUnder_check {i : Instr} (noTransfer : ¬ Transfers i) (noSys : ∀ nnn, i ≠ .sys nnn)
    (writable : progBase ≤ s.i.toNat) (room : s.i.toNat + 16 ≤ memSize) : ∃ t, execUnder c i s = .next t := by
  cases i with
  | jp | call | ret | jpV0 => exact absurd (by simp [Transfers]) noTransfer
  | sys nnn => exact absurd rfl (noSys nnn)
  | drw x y n =>
    have read := readBytes_check_inside s.mem (show s.i.toNat + n.toNat ≤ memSize by omega)
    simp only [execUnder, execDrw, check, read]
    exact ⟨_, rfl⟩
  | ldVxMem x =>
    have read := readBytes_check_inside s.mem (show s.i.toNat + (x.toNat + 1) ≤ memSize by omega)
    simp only [execUnder, execLdVxMem, check, read]
    exact ⟨_, rfl⟩
  | ldVxK x =>
    simp only [execUnder, execLdVxK]
    split <;> exact ⟨_, rfl⟩
  | ldB x =>
    exact exists_next_storeAtI_check check _ writable (show s.i.toNat + 3 ≤ memSize by omega)
  | ldMemVx x =>
    exact exists_next_storeAtI_check check _ writable (by rw [length_regsUpTo]; omega)
  | _ => exact ⟨_, rfl⟩

/-! ## What is out of bounds -/

theorem execDrw_check_outOfBounds {x y : Reg} {n : Nibble} (rows : 0 < n.toNat) (ends : memSize < s.i.toNat + n.toNat) :
    execDrw x y n s c = raiseOutOfBounds (max s.i.toNat memSize) (.drw x y n) s := by
  simp only [execDrw, check, readBytes_check_beyond s.mem rows ends]

theorem execLdVxMem_check_outOfBounds {x : Reg} (ends : memSize < s.i.toNat + (x.toNat + 1)) :
    execLdVxMem x s c = raiseOutOfBounds (max s.i.toNat memSize) (.ldVxMem x) s := by
  simp only [execLdVxMem, check, readBytes_check_beyond s.mem (Nat.succ_pos _) ends]

/-- A store of at most 16 bytes that reaches beyond `0xFFF` begins above the protected bytes. -/
theorem storeAtI_check_outOfBounds {bytes : List Byte} (i : Instr) (nonempty : 0 < bytes.length)
    (short : bytes.length ≤ 16) (ends : memSize < s.i.toNat + bytes.length) :
    storeAtI bytes i s c = raiseOutOfBounds (max s.i.toNat memSize) i s := by
  have writable : progBase ≤ s.i.toNat := by rw [memSize] at ends; rw [progBase]; omega
  rw [storeAtI, check, storeBytes, storeAddrs_check_beyond nonempty writable ends]
  rfl

theorem execJpV0_check_outOfBounds {nnn : Addr}
    (beyond : memSize ≤ nnn.toNat + (s.reg (jumpOffset c.jumpOffsetReg nnn)).toNat) :
    execJpV0 nnn s c =
      raiseOutOfBounds (nnn.toNat + (s.reg (jumpOffset c.jumpOffsetReg nnn)).toNat) (.jpV0 nnn) s := by
  rw [execJpV0, check, effAddr_check_of_le beyond]

end

/-- Settles O53: the advance is by 16 bits, and the accesses of an instruction are at most 16 bytes from `I` on. -/
theorem checkPolicyFaultsBeyondTheAddressSpace : Obligations.CheckPolicyFaultsBeyondTheAddressSpace := by
  intro c s checked
  have check : c.addrPolicy = .check := by rw [checked]
  have offset : c.jumpOffsetReg = .v0 := by rw [checked]; rfl
  have reported : max s.i.toNat memSize > 0xFFF := Nat.le_max_right _ _
  refine ⟨stepUnder_check_of_pc check, fun _ _ => ⟨_, rfl, advance_pc_check check⟩,
    fun _ _ => exists_next_skipIf_check check beq_iff_eq, fun _ _ => exists_next_skipIf_check check bne_iff_ne,
    fun _ _ => exists_next_skipIf_check check beq_iff_eq, fun _ _ => exists_next_skipIf_check check bne_iff_ne,
    fun x k low => ?_, fun nnn k even count => exists_next_call_check check even count,
    fun i t noTransfer noSkip ran => ?_, fun i noTransfer noSys writable room =>
      exists_next_execUnder_check check noTransfer noSys writable room,
    fun x y n ends rows => ⟨_, reported, execDrw_check_outOfBounds check rows ends⟩,
    fun x ends => ⟨_, reported, execLdVxMem_check_outOfBounds check (Nat.succ_lt_succ ends)⟩,
    fun x ends => ⟨_, reported, ?_⟩, fun x ends => ⟨_, reported, ?_⟩, fun nnn beyond => ?_⟩
  · obtain rfl := eq_lowNibble low
    exact ⟨exists_next_skipIf_check check Iff.rfl, exists_next_skipIf_check check (by rw [Bool.not_eq_true'])⟩
  · rw [← lowestKey_none, ← nextPc_check, ← check]
    exact execUnder_pc noTransfer noSkip ran
  · exact storeAtI_check_outOfBounds check (.ldB x) (show 0 < 3 by decide) (show 3 ≤ 16 by decide)
      (Nat.succ_lt_succ ends)
  · have count := length_regsUpTo s x
    exact storeAtI_check_outOfBounds check (.ldMemVx x) (by omega) (by omega) (count ▸ Nat.succ_lt_succ ends)
  · have added : jumpOffset c.jumpOffsetReg nnn = 0x0#4 := by rw [offset]; rfl
    rw [← added] at beyond ⊢
    exact execJpV0_check_outOfBounds check beyond

end Sys2Proof.Machine
end
